-- ==== Sys2Proof/Word.lean ====
section
/-! DEFINITION. The byte, the one data width the block moves to and from its memories (R39), and the list of stream
bits that a decoder reads. -/

namespace Sys2Proof

/-- A payload byte, an output byte or a table entry: 8 bits (`SYMBOL_W` of R4, R39). -/
abbrev Byte := BitVec 8

/-- Stream bits in the order the block reads them, first bit read first (R6, R31). -/
abbrev Bits := List Bool

end Sys2Proof
end

