-- ==== Sys2Proof/Config.lean ====
section
/-! DEFINITION. The constants the document fixes (R4) and the values it leaves open. An open value is an opaque
constant: nothing can evaluate it, so no theorem can rest on what it is. -/

namespace Sys2Proof

namespace Config

/-- `LIT_BASE_W` (R4): the bits of `L` when the unary count is 0. -/
def litBaseWidth : Nat := 4

/-- `LIT_CLASS_SHIFT` (R4): the class base is `(2^U - 1)` shifted left by this. -/
def litClassShift : Nat := 4

/-- `TABLE_SIZE` (R4). -/
def tableSize : Nat := 256

/-- `OFFSET_BIAS` (R4): the effective offset is `O` plus this. -/
def offsetBias : Nat := 1

/-- `LEN_BASE` (R4): the starting value of a copy length. -/
def lenBase : Nat := 3

/-- `LEN_GROUP_W` (R4): the width of a length group. -/
def lenGroupWidth : Nat := 3

/-- `LEN_CONTINUE` (R4): the group value that means another group follows. -/
def lenContinue : Nat := 7

/-- `RAW_W` (R4): the width of a value of a raw run. -/
def rawWidth : Nat := 8

/-- `MAGIC` (R4, R152), host side. -/
def magic : List Byte := [0x00, 0x70, 0x78, 0x61]

/-- `HEADER_LEN` (R4, R153), host side. -/
def headerLength : Nat := 8

/-- `BOUNDARY` (R4, R156), host side. -/
def boundary : Nat := 0x4300

/-- `PIXEL_CAP` (R4, R155), host side. -/
def pixelCap : Nat := 32767

/-- The capacity of the payload window in bytes: `P[a]` for `0 <= a <= 65534` (R10, R24). -/
def payloadCapacity : Nat := 65535

/-- DESIGN CHOICE (log 2), safe. The byte that `PAYLOAD[a]` holds after the `p`-th power-on reset while the host has
not written it: the contents are unspecified (R28), so the value is free. -/
opaque unwrittenPayload : Nat → Nat → Byte

/-- DESIGN CHOICE (log 2), safe. The byte that `OUT[a]` holds after the `p`-th power-on reset while the block has not
written it: the contents are unspecified (R28), so the value is free. -/
opaque unwrittenOut : Nat → Nat → Byte

/-- DESIGN CHOICE (log 6), safe. What the `d`-th read of the result window without a result returns: an unspecified
value (R123). -/
opaque unspecifiedRead : Nat → Byte

/-- DESIGN CHOICE (log 13), safe. `host_bad_total_length_error` (R157, D20): the code the surrounding software reports
for a total length it cannot honour. -/
opaque hostBadTotalLengthError : BitVec 3

end Config

end Sys2Proof
end

