-- ==== Sys2Proof/Syntax.lean ====
section
/-! DEFINITION. The tokens of the stream, one constructor per row of spec/opcode_table.json. -/

namespace Sys2Proof

/-- A token with its operands (30_encoding.md). The five legal classes of `LIT` have a field width each, so each is a
constructor with the field `L` at that width (R52). A copy holds its raw offset field `O` and its length, which has
exactly one spelling in groups (R58). -/
inductive Instr where
  /-- `LIT.U0`: no unary one, `L` of 4 bits (R90). -/
  | litU0 (l : BitVec 4)
  /-- `LIT.U1`: one unary one, `L` of 5 bits (R90). -/
  | litU1 (l : BitVec 5)
  /-- `LIT.U2`: two unary ones, `L` of 6 bits (R90). -/
  | litU2 (l : BitVec 6)
  /-- `LIT.U3`: three unary ones, `L` of 7 bits (R90). -/
  | litU3 (l : BitVec 7)
  /-- `LIT.U4`: four unary ones, `L` of 8 bits, 16 and above out of range (R90, R61). -/
  | litU4 (l : BitVec 8)
  /-- `LIT.ILL`: `u` unary ones, 5 or more, and `L` of `4 + u` bits (R97). -/
  | litIll (u l : Nat)
  /-- `CPY5`: `O` of 5 bits (R106). -/
  | cpy5 (o : BitVec 5) (len : Nat)
  /-- `RAW`: the data bytes, none of them zero (R103, R59). -/
  | raw (data : List Byte)
  /-- `CPY10`: `O` of 10 bits, not 0 (R107). -/
  | cpy10 (o : BitVec 10) (len : Nat)
  /-- `CPY15`: `O` of 15 bits (R108). -/
  | cpy15 (o : BitVec 15) (len : Nat)
  deriving DecidableEq, Repr

end Sys2Proof
end

