-- ==== Sys2Proof/WellFormed.lean ====
section
/-! DEFINITION. Which terms of `Instr` an encoding exists for. -/

namespace Sys2Proof

/-- A copy length can be spelled when it is at least 3 (R58, R63 (d)). -/
def copyLengthOk (len : Nat) : Bool := Config.lenBase ≤ len

/-- The term is one that some bit string spells: `LIT.ILL` has `U >= 5` and an `L` that fits `4 + U` bits (R97), a copy
has a length of at least 3 (R58), `CPY10` has `O != 0` (R107), and no data byte of a `RAW` is zero (R59). -/
def wellFormed : Instr → Bool
  | .litU0 _ => true
  | .litU1 _ => true
  | .litU2 _ => true
  | .litU3 _ => true
  | .litU4 _ => true
  | .litIll u l => decide (5 ≤ u) && decide (l < 2 ^ (Config.litBaseWidth + u))
  | .cpy5 _ len => copyLengthOk len
  | .raw data => data.all (· != 0#8)
  | .cpy10 o len => (o != 0#10) && copyLengthOk len
  | .cpy15 _ len => copyLengthOk len

end Sys2Proof
end

