-- ==== Sys2Proof/Decode.lean ====
section
/-! DEFINITION. From stream bits to a token, from a token to stream bits, and the opcode table's rows. -/

namespace Sys2Proof

/-! ## Fields -/

/-- The value of a field whose bits are read low bit first (R32). -/
def bitsToNat : Bits → Nat
  | [] => 0
  | b :: bs => b.toNat + 2 * bitsToNat bs

/-- The `n` stream bits of a field of value `v`, low bit first (R32). -/
def fieldBits : Nat → Nat → Bits
  | 0, _ => []
  | n + 1, v => (v % 2 == 1) :: fieldBits n (v / 2)

/-- The stream bits of a byte string: bit 0 of each byte first (R31). -/
def bitsOfBytes (bytes : List Byte) : Bits := bytes.flatMap fun b => fieldBits 8 b.toNat

/-- Read an `n`-bit field, low bit first; `none` when the bits end first (R72, R73). -/
def takeField : Nat → Bits → Option (Nat × Bits)
  | 0, bs => some (0, bs)
  | _ + 1, [] => none
  | n + 1, b :: bs => (takeField n bs).map fun r => (b.toNat + 2 * r.1, r.2)

/-! ## Decoding -/

/-- What the bits from a token boundary on spell (R62). -/
inductive DecodeResult where
  /-- A complete token, and the bits after it. -/
  | token (i : Instr) (rest : Bits)
  /-- The bits end inside a token: `TruncatedStream`. `data` are the bytes a raw run had read in full by then, which
  the block appends before it fails (R103, R141); every other token has none. -/
  | truncated (data : List Byte)
  deriving DecidableEq, Repr

/-- Count the ones before the first zero and consume that zero (R91). -/
def takeUnary : Bits → Option (Nat × Bits)
  | [] => none
  | false :: bs => some (0, bs)
  | true :: bs => (takeUnary bs).map fun r => (r.1 + 1, r.2)

/-- The `LIT` token with unary count `u` and field `l`: the table's six rows are told apart by `u` (R57, R97). -/
def litOfFields (u l : Nat) : Instr :=
  match u with
  | 0 => .litU0 (BitVec.ofNat 4 l)
  | 1 => .litU1 (BitVec.ofNat 5 l)
  | 2 => .litU2 (BitVec.ofNat 6 l)
  | 3 => .litU3 (BitVec.ofNat 7 l)
  | 4 => .litU4 (BitVec.ofNat 8 l)
  | n + 5 => .litIll (n + 5) l

/-- A `LIT` after its control bit: the unary count, then `4 + U` bits (R52, R90). -/
def decodeLit (bs : Bits) : DecodeResult :=
  match takeUnary bs with
  | none => .truncated []
  | some (u, bs) =>
    match takeField (Config.litBaseWidth + u) bs with
    | none => .truncated []
    | some (l, bs) => .token (litOfFields u l) bs

/-- The copy length: 3 plus the 3-bit groups, up to and including the first that is not 7 (R55, R105). -/
def takeLength : Bits → Option (Nat × Bits)
  | b0 :: b1 :: b2 :: bs =>
    if bitsToNat [b0, b1, b2] = Config.lenContinue then
      (takeLength bs).map fun r => (Config.lenContinue + r.1, r.2)
    else some (Config.lenBase + bitsToNat [b0, b1, b2], bs)
  | _ => none

/-- A copy after its offset field: the length groups (R54). -/
def decodeCopyLength (mk : Nat → Instr) (bs : Bits) : DecodeResult :=
  match takeLength bs with
  | none => .truncated []
  | some (len, bs) => .token (mk len) bs

/-- The body of a raw run: the bytes before the first zero byte, and the bits after that zero byte, or `none` when the
bits end first (R56). -/
def takeRawBody : Bits → List Byte × Option Bits
  | b0 :: b1 :: b2 :: b3 :: b4 :: b5 :: b6 :: b7 :: bs =>
    if bitsToNat [b0, b1, b2, b3, b4, b5, b6, b7] = 0 then ([], some bs)
    else (BitVec.ofNat 8 (bitsToNat [b0, b1, b2, b3, b4, b5, b6, b7]) :: (takeRawBody bs).1, (takeRawBody bs).2)
  | _ => ([], none)

/-- A `RAW` after its 13-bit header (R103). -/
def decodeRaw (bs : Bits) : DecodeResult :=
  match takeRawBody bs with
  | (data, none) => .truncated data
  | (data, some bs) => .token (.raw data) bs

/-- The offset field of a copy-class token of width `w`, the escape test on it (R102), and what follows it. -/
def decodeOffset (w : Nat) (mk : Nat → Nat → Instr) (bs : Bits) : DecodeResult :=
  match takeField w bs with
  | none => .truncated []
  | some (o, bs) => if w = 10 ∧ o = 0 then decodeRaw bs else decodeCopyLength (mk o) bs

/-- A copy-class token after its control bit: the width probe, then the offset field (R53, R100, R101). -/
def decodeCopyClass : Bits → DecodeResult
  | true :: true :: bs => decodeOffset 5 (fun o len => .cpy5 (BitVec.ofNat 5 o) len) bs
  | true :: false :: bs => decodeOffset 10 (fun o len => .cpy10 (BitVec.ofNat 10 o) len) bs
  | false :: bs => decodeOffset 15 (fun o len => .cpy15 (BitVec.ofNat 15 o) len) bs
  | _ => .truncated []

/-- The token at the head of the bits, told by its control bit (R51, R60, R83). -/
def decode : Bits → DecodeResult
  | [] => .truncated []
  | true :: bs => decodeLit bs
  | false :: bs => decodeCopyClass bs

/-- The bytes of an instruction whose table bits are `w`, every bit above `nbits` zero, and enough of them that the
token ends inside them. -/
def tableBytes (nbits w : Nat) : List Byte :=
  (List.range (2 * ((nbits + 7) / 8) + 8)).map fun k => BitVec.ofNat 8 (w % 2 ^ nbits / 2 ^ (8 * k))

/-- What the decoder reads from an instruction of spec/opcode_table.json whose bits are `w`; `none` where it refuses. -/
def decodeTableWord (nbits w : Nat) : Option Instr :=
  match decode (bitsOfBytes (tableBytes nbits w)) with
  | .token i _ => some i
  | .truncated _ => none

/-! ## Encoding -/

/-- The stream bits of a `LIT` with unary count `u` and field `l` (R52). -/
def encodeLit (u l : Nat) : Bits :=
  true :: (List.replicate u true ++ false :: fieldBits (Config.litBaseWidth + u) l)

/-- The groups that spell a copy length: `(len - 3) div 7` groups of 7 and one of `(len - 3) mod 7` (R58). -/
def encodeLength (len : Nat) : Bits :=
  List.replicate (3 * ((len - Config.lenBase) / 7)) true ++ fieldBits 3 ((len - Config.lenBase) % 7)

/-- The body of a raw run: the data bytes, then the zero byte that ends it (R56). -/
def encodeRawBody (data : List Byte) : Bits := bitsOfBytes data ++ fieldBits 8 0

/-- The stream bits of a token (R52, R53, R54). -/
def encode : Instr → Bits
  | .litU0 l => encodeLit 0 l.toNat
  | .litU1 l => encodeLit 1 l.toNat
  | .litU2 l => encodeLit 2 l.toNat
  | .litU3 l => encodeLit 3 l.toNat
  | .litU4 l => encodeLit 4 l.toNat
  | .litIll u l => encodeLit u l
  | .cpy5 o len => false :: true :: true :: (fieldBits 5 o.toNat ++ encodeLength len)
  | .raw data => false :: true :: false :: (fieldBits 10 0 ++ encodeRawBody data)
  | .cpy10 o len => false :: true :: false :: (fieldBits 10 o.toNat ++ encodeLength len)
  | .cpy15 o len => false :: false :: (fieldBits 15 o.toNat ++ encodeLength len)

/-- How many groups spell a copy length (R58). -/
def groupCount (len : Nat) : Nat := (len - Config.lenBase) / 7 + 1

/-- The total bits of a `LIT` with unary count `u`: `6 + 2U` (R52, R90). -/
def litBits (u : Nat) : Nat := 6 + 2 * u

/-- The total bits of a copy with a header of `header` bits: `header + 3k` for `k` groups (30_encoding.md section 2). -/
def copyBits (header len : Nat) : Nat := header + 3 * groupCount len

/-- The total bits of a `RAW` with `n` data bytes: `21 + 8n` (R103). -/
def rawBits (n : Nat) : Nat := 21 + 8 * n

/-- The total bits of a token, by the formulas of 30_encoding.md section 2. -/
def tokenBits : Instr → Nat
  | .litU0 _ => litBits 0
  | .litU1 _ => litBits 1
  | .litU2 _ => litBits 2
  | .litU3 _ => litBits 3
  | .litU4 _ => litBits 4
  | .litIll u _ => litBits u
  | .cpy5 _ len => copyBits 8 len
  | .raw data => rawBits data.length
  | .cpy10 _ len => copyBits 13 len
  | .cpy15 _ len => copyBits 17 len

/-! ## The opcode table -/

/-- A row of spec/opcode_table.json: a token matches when `peek & mask == match` for the `prefixLen` bits at its start
(R60). -/
structure OpcodeRow where
  mnemonic : String
  pattern : Nat
  mask : Nat
  prefixLen : Nat
  deriving DecidableEq, Repr

/-- The ten rows, in the table's order, which has `RAW` before `CPY10` (R60). -/
def opcodeRows : List OpcodeRow :=
  [⟨"LIT.U0", 0x1, 0x3, 2⟩, ⟨"LIT.U1", 0x3, 0x7, 3⟩, ⟨"LIT.U2", 0x7, 0xf, 4⟩, ⟨"LIT.U3", 0xf, 0x1f, 5⟩,
   ⟨"LIT.U4", 0x1f, 0x3f, 6⟩, ⟨"LIT.ILL", 0x3f, 0x3f, 6⟩, ⟨"CPY5", 0x6, 0x7, 3⟩, ⟨"RAW", 0x2, 0x1fff, 13⟩,
   ⟨"CPY10", 0x2, 0x7, 3⟩, ⟨"CPY15", 0x0, 0x3, 2⟩]

/-- The row matches the bits at a token boundary; a row whose prefix the bits do not hold does not match (R60). -/
def OpcodeRow.matchesBits (r : OpcodeRow) (bs : Bits) : Bool :=
  decide (r.prefixLen ≤ bs.length) && (bitsToNat (bs.take r.prefixLen) &&& r.mask == r.pattern)

/-- The mnemonic of the first row, in the table's order, that matches the bits. -/
def rowOf (bs : Bits) : Option String := (opcodeRows.find? (·.matchesBits bs)).map (·.mnemonic)

/-- The table's mnemonic of a token. -/
def mnemonic : Instr → String
  | .litU0 _ => "LIT.U0"
  | .litU1 _ => "LIT.U1"
  | .litU2 _ => "LIT.U2"
  | .litU3 _ => "LIT.U3"
  | .litU4 _ => "LIT.U4"
  | .litIll _ _ => "LIT.ILL"
  | .cpy5 _ _ => "CPY5"
  | .raw _ => "RAW"
  | .cpy10 _ _ => "CPY10"
  | .cpy15 _ _ => "CPY15"

end Sys2Proof
end

