-- ==== Sys2Proof/Machine/Memory.lean ====
section
/-! DEFINITION. The two byte memories as plain data, and the 256-entry move-to-front table. -/

namespace Sys2Proof.Machine

/-! ## Byte memories -/

/-- A byte memory: the bytes that have been written, by address, in one canonical form (`Memory.wf`). An address that
is not listed holds no value the spec gives (R19, R28; log 2). -/
abbrev Memory := List Host.Cell

/-- Every address in the list is above `a`, and the addresses rise strictly. -/
def cellsRiseFrom (a : Nat) : Memory → Bool
  | [] => true
  | (a', _) :: m => decide (a < a') && cellsRiseFrom a' m

/-- The canonical form: the addresses rise strictly. An unlisted address reads as no value at all, so no entry can equal
what an unlisted address reads as, and equal memories are equal lists. -/
def Memory.wf : Memory → Bool
  | [] => true
  | (a, _) :: m => cellsRiseFrom a m

/-- The byte written at `a`, or none where nothing has been written. -/
def memRead : Memory → Nat → Option Byte
  | [], _ => none
  | (a', b) :: m, a => if a = a' then some b else memRead m a

/-- Write one byte. -/
def memWrite : Memory → Nat → Byte → Memory
  | [], a, b => [(a, b)]
  | (a', b') :: m, a, b =>
    if a < a' then (a, b) :: (a', b') :: m
    else if a = a' then (a, b) :: m
    else (a', b') :: memWrite m a b

/-! ## The move-to-front table -/

/-- The `MTF` table: 256 bytes, position 0 the front; "size is invariant (always 256)" (R16, R96). -/
structure Table where
  /-- The entries, the front first. -/
  entries : List Byte
  /-- There are always 256 of them. -/
  size : entries.length = 256
  deriving DecidableEq, Repr

/-- `MTF[i]` (R16). -/
def tableAt (t : Table) (i : Fin 256) : Byte := t.entries[i.val]'(by rw [t.size]; exact i.isLt)

/-- The identity permutation: `MTF[i] = i` (R17). -/
def identityTable : Table := ⟨(List.range 256).map (BitVec.ofNat 8), by simp⟩

/-- The table after the entry at `i` has been moved to the front: `[T[i]] ++ T[0 .. i-1] ++ T[i+1 .. 255]` (R93). -/
def moveToFront (t : Table) (i : Fin 256) : Table :=
  ⟨tableAt t i :: t.entries.eraseIdx i, by simp [List.length_eraseIdx, t.size]⟩

/-- `mtf_take(i)`: the byte at position `i`, and the table with that byte moved to the front (R93). -/
def mtfTake (t : Table) (i : Fin 256) : Byte × Table := (tableAt t i, moveToFront t i)

/-- The entries are pairwise distinct, so the table is a permutation of the byte values (R16, R94). -/
abbrev Table.isPermutation (t : Table) : Prop := t.entries.Nodup

/-- The position at which a byte stands, 256 where it stands nowhere. -/
def tablePosition (t : Table) (b : Byte) : Nat := t.entries.idxOf b

end Sys2Proof.Machine
end

