-- ==== Sys2Proof/Machine/State.lean ====
section
/-! DEFINITION. The machine's state, the reasons a step can stop, and the state after power-on reset. -/

namespace Sys2Proof.Machine

/-- `STATUS` (R21): whether a decode is running and how the last one ended. Its 2-bit codes are `statusCode`. -/
inductive Status where
  /-- No decode has been started since reset. -/
  | idle
  /-- A decode is running. -/
  | busy
  /-- The last decode succeeded. -/
  | done
  /-- The last decode faulted. -/
  | error
  deriving DecidableEq, Repr

/-- The document's error taxonomy, the values of `ERR` (R22, R130). Its 3-bit codes are `errCode`. -/
inductive Err where
  /-- No fault. -/
  | none
  /-- Surrounding software: the magic does not match. The block never writes it (R134). -/
  | unsupportedFormat
  /-- A bit is needed that the payload does not hold (R131). -/
  | truncatedStream
  /-- A copy reaches before the start of the output (R132). -/
  | invalidOffset
  /-- A table index of 256 or more (R133). -/
  | indexOutOfRange
  /-- Surrounding software: the file could not be read. The block never writes it (R134). -/
  | ioError
  deriving DecidableEq, Repr

/-- One move of the host agent (44_host_commands.md). Register numbers are those of R24. -/
inductive HostMove where
  /-- Write a value to a register: START, `PLEN`, `TLEN` (R23, R24, R120). -/
  | writeReg (n v : Nat)
  /-- Read a register (R124). -/
  | readReg (n : Nat)
  /-- Write a byte through the payload window (R24). -/
  | writePayload (a : Nat) (b : Byte)
  /-- Read a byte through the result window (R123). -/
  | readResult (a : Nat)
  /-- Apply power-on reset, an input to the block (R125). -/
  | powerOn
  /-- Make no move: this turn is the block's (R126). -/
  | yield
  deriving DecidableEq, Repr

/-- The whole state. The first nine fields are the spec's (R10); the last four are the model's own. `CMD` stores
nothing (R23), so it has no field. -/
structure State where
  /-- `PAYLOAD` (R20). -/
  payload : Memory
  /-- `PLEN`, 16 bits (R15). -/
  plen : BitVec 16
  /-- `TLEN`, 16 bits (R14). -/
  tlen : BitVec 16
  /-- `CUR`, the bit cursor and program counter. A natural: R12 and D16 allow it, since the 19-bit register never
  wraps (log 3). -/
  cur : Nat
  /-- `OLEN`, the bytes appended so far. A natural: R13 allows it (log 3). -/
  olen : Nat
  /-- `OUT` (R19). -/
  out : Memory
  /-- `MTF` (R16). -/
  mtf : Table
  /-- `STATUS` (R21). -/
  status : Status
  /-- `ERR` (R22). -/
  err : Err
  /-- DESIGN CHOICE (log 1): the host's coming moves, first to come first. When empty, every turn is the block's. -/
  hostMoves : List HostMove
  /-- DESIGN CHOICE (log 5): what the host's last read returned. -/
  readData : Nat
  /-- DESIGN CHOICE (log 2): how many power-on resets there have been, which selects the free contents of memory. -/
  powerOns : Nat
  /-- DESIGN CHOICE (log 6): how many unspecified reads there have been, which selects the next one's free value. -/
  draws : Nat
  deriving DecidableEq, Repr

/-- Why the machine stops with a fault. The block's own three faults are not here: they are next states (R136). -/
inductive Fault where
  /-- A host register move names a number above 6, which R24 does not give. Safe: the model stops where a real host
  reaches something else (log 9). -/
  | noSuchRegister (n : Nat)
  /-- A host write names a payload address above 65534, which does not exist (R10, R24). Safe (log 9). -/
  | noSuchPayloadAddress (a : Nat)
  deriving DecidableEq, Repr

/-- Why the machine refuses a step. -/
inductive Refusal where
  /-- An instruction with no meaning yet; raised by exec's refused arms only. Safe. No arm of this model is refused. -/
  | notModelled (mnemonic : String)
  /-- The host writes the payload window while `BUSY`: "a host error with no defined meaning" (R122, R158; U5). Safe:
  no claim speaks of a system whose host does it (log 10). -/
  | payloadWriteWhileBusy (a : Nat)
  deriving DecidableEq, Repr

/-- The answer of a step. -/
abbrev Result := Host.Outcome State Fault Refusal

/-- The state after the first power-on reset (R28, R150). The contents of the memories are unspecified: no byte is
listed (log 2). The table is unspecified: DESIGN CHOICE the identity (log 4). -/
def State.reset : State where
  payload := []
  plen := 0
  tlen := 0
  cur := 0
  olen := 0
  out := []
  mtf := identityTable
  status := .idle
  err := .none
  hostMoves := []
  readData := 0
  powerOns := 0
  draws := 0

end Sys2Proof.Machine
end

