-- ==== Sys2Proof/Machine/Flags.lean ====
section
/-! DEFINITION. The block has no flags or condition codes (R26); its only sticky status is `STATUS` and `ERR`. Here are
their numbers as the host reads them. -/

namespace Sys2Proof.Machine

/-- The 2-bit code of `STATUS` (R21). -/
def statusCode : Status → BitVec 2
  | .idle => 0
  | .busy => 1
  | .done => 2
  | .error => 3

/-- The 3-bit code of `ERR` (R22, R130). -/
def errCode : Err → BitVec 3
  | .none => 0
  | .unsupportedFormat => 1
  | .truncatedStream => 2
  | .invalidOffset => 3
  | .indexOutOfRange => 4
  | .ioError => 5

/-- The codes the block itself writes to `ERR`: 0, 2, 3 and 4 (R22, R134). -/
def blockWrites (e : Err) : Bool := e != .unsupportedFormat && e != .ioError

end Sys2Proof.Machine
end

