-- ==== Sys2Proof/Machine/Operands.lean ====
section
/-! DEFINITION. How a token's fields become its operands (30_encoding.md section 3), in exact natural arithmetic (R6,
R92, R111). -/

namespace Sys2Proof.Machine

/-- The class base of a `LIT` with unary count `u`: `(2^U - 1) << 4` (R57). -/
def classBase (u : Nat) : Nat := (2 ^ u - 1) <<< Config.litClassShift

/-- The table index of a `LIT`: `L + ((2^U - 1) << 4)`, with no wrap and no truncation (R57, R92). -/
def litIndex (u l : Nat) : Nat := l + classBase u

/-- The effective offset of a copy: `O + 1` (R58, R111). -/
def copyOffset (o : Nat) : Nat := o + Config.offsetBias

end Sys2Proof.Machine
end

