-- ==== Sys2Proof/Machine/Ops.lean ====
section
/-! DEFINITION. The named operations over the memories and registers, taking a fault, and START beside it. -/

namespace Sys2Proof.Machine

/-! ## Reading the payload -/

/-- The bits the payload holds: `8 * PLEN` (R12). -/
def payloadBits (s : State) : Nat := 8 * s.plen.toNat

/-- The bits left from the cursor on. -/
def bitsLeft (s : State) : Nat := payloadBits s - s.cur

/-- `MemRead(PAYLOAD, a, 1)` (R36). A byte the host has not written is a free value (R28; log 2). -/
def payloadByte (s : State) (a : Nat) : Byte := (memRead s.payload a).getD (Config.unwrittenPayload s.powerOns a)

/-- The stream bit at position `c`: bit `c mod 8` of payload byte `c div 8` (R31). -/
def payloadBit (s : State) (c : Nat) : Bool := (payloadByte s (c / 8)).getLsbD (c % 8)

/-- The bits from the cursor to the end of the payload, in stream order (R11, R31). -/
def streamBits (s : State) : Bits := (List.range (bitsLeft s)).map fun i => payloadBit s (s.cur + i)

/-! ## The output -/

/-- `MemRead(OUT, a, 1)` (R38). A position that holds no value reads as a free value; the block never reads one, since
a copy reads below `OLEN` only (log 2). -/
def outByte (s : State) (a : Nat) : Byte := (memRead s.out a).getD (Config.unwrittenOut s.powerOns a)

/-- `append(b)`: `OUT[OLEN] <- b; OLEN <- OLEN + 1` (R37). -/
def append (b : Byte) (s : State) : State := { s with out := memWrite s.out s.olen b, olen := s.olen + 1 }

/-- Append bytes in order. -/
def appendAll : List Byte → State → State
  | [], s => s
  | b :: bs, s => appendAll bs (append b s)

/-- The copy loop: `n` times, append the byte that stands `offset` before the write position, which sees every byte this
same copy has appended (R41, R109). -/
def copyBytes : Nat → Nat → State → State
  | 0, _, s => s
  | n + 1, offset, s => copyBytes n offset (append (outByte s (s.olen - offset)) s)

/-- The result: `OUT[0 .. TLEN-1]` (R88, R123). -/
def resultBytes (s : State) : List Byte := (List.range s.tlen.toNat).map (outByte s)

/-! ## The cursor -/

/-- `n` more bits of the payload can be read (R71). -/
def bitsRemain (n : Nat) (s : State) : Bool := decide (s.cur + n ≤ payloadBits s)

/-- `n` bits have been read: each `read_bit` adds 1 (R11, R70). -/
def advance (n : Nat) (s : State) : State := { s with cur := s.cur + n }

/-- Every bit has been read and one more was asked for: the cursor is `8 * PLEN` (R73). A cursor already beyond that
stays, since a failing read leaves it unchanged (R71; log 15). -/
def exhaust (s : State) : State := { s with cur := max s.cur (payloadBits s) }

/-! ## Faults and START -/

/-- Taking a fault: `ERR <-` its code and `STATUS <- ERROR`, in one action with the failing step, and nothing else
(R136). The block then has no further step. There is no return from it but START and power-on reset (R138). -/
def raise (e : Err) (s : State) : Result := .next { s with err := e, status := .error }

/-- START: `CUR <- 0`, `OLEN <- 0`, `OUT <-` empty, `MTF` the identity, `ERR <- 0`, `STATUS <- BUSY` (R120). -/
def start (s : State) : State :=
  { s with cur := 0, olen := 0, out := [], mtf := identityTable, err := .none, status := .busy }

/-- Power-on reset, from any state: the state of R28, first column (R125). The host's coming moves and what it has read
are the host's own, and the counters of the free values go on, so that the memories' contents are unspecified anew. -/
def powerOnReset (s : State) : State :=
  { State.reset with hostMoves := s.hostMoves, readData := s.readData, powerOns := s.powerOns + 1, draws := s.draws }

end Sys2Proof.Machine
end

