-- ==== Sys2Proof/Machine/HostAgent.lean ====
section
/-! DEFINITION. The host's moves (44_host_commands.md), and the load that stands for a host's in `State.withFetchWord`. -/

namespace Sys2Proof.Machine

/-- The host writes register `n` (R23, R24). A value wider than the register keeps its low bits. START and the length
writes are ignored while `BUSY` (R121, R122). A write to a read-only register has no effect (U14; log 8). -/
def writeRegister (n v : Nat) (s : State) : Result :=
  match n with
  | 0 => .next (if v % 2 = 1 ∧ s.status ≠ .busy then start s else s)
  | 3 => .next (if s.status = .busy then s else { s with plen := BitVec.ofNat 16 v })
  | 4 => .next (if s.status = .busy then s else { s with tlen := BitVec.ofNat 16 v })
  | 1 | 2 | 5 | 6 => .next s
  | n => .fault (.noSuchRegister n)

/-- The value of register `n` as the host reads it (R23, R24, R124); none for a number R24 does not give. -/
def registerValue (n : Nat) (s : State) : Option Nat :=
  match n with
  | 0 => some 0
  | 1 => some (statusCode s.status).toNat
  | 2 => some (errCode s.err).toNat
  | 3 => some s.plen.toNat
  | 4 => some s.tlen.toNat
  | 5 => some s.cur
  | 6 => some s.olen
  | _ => none

/-- The host reads register `n`, with no side effect on the block (R124). -/
def readRegister (n : Nat) (s : State) : Result :=
  match registerValue n s with
  | some v => .next { s with readData := v }
  | none => .fault (.noSuchRegister n)

/-- The host writes `P[a]` (R24). While `BUSY` the spec gives it no meaning (R122, R158; log 10). -/
def writePayloadWindow (a : Nat) (b : Byte) (s : State) : Result :=
  if Config.payloadCapacity ≤ a then .fault (.noSuchPayloadAddress a)
  else if s.status = .busy then .refused (.payloadWriteWhileBusy a)
  else .next { s with payload := memWrite s.payload a b }

/-- The host reads the result window at `a`: a byte of the result at `DONE` for `a < TLEN`, and else an unspecified
value (R123, U6; log 6). A position the host's own rewrite of `TLEN` opened holds no value either (log 7). -/
def readResultWindow (a : Nat) (s : State) : State :=
  if s.status = .done ∧ a < s.tlen.toNat ∧ a < s.olen then { s with readData := (outByte s a).toNat }
  else { s with readData := (Config.unspecifiedRead s.draws).toNat, draws := s.draws + 1 }

/-- Bytes written to the payload from address `a` on. -/
def storeBytes : Nat → List Byte → Memory → Memory
  | _, [], m => m
  | a, b :: bs, m => storeBytes (a + 1) bs (memWrite m a b)

/-- Load a payload that holds one instruction, and make the block's next turn fetch it: the bytes from address 0 on,
`PLEN` their number, `CUR` at bit 0, `STATUS` `BUSY`, `TLEN` other than `OLEN` so that the length test does not end the
decode, and no host move first (log 16). -/
def loadForFetch (nbits w : Nat) (s : State) : State :=
  { s with
    payload := storeBytes 0 (tableBytes nbits w) s.payload
    plen := BitVec.ofNat 16 (tableBytes nbits w).length
    cur := 0
    status := .busy
    err := .none
    tlen := if s.tlen.toNat = s.olen then s.tlen + 1 else s.tlen
    hostMoves := [] }

end Sys2Proof.Machine
end

