-- ==== Sys2Proof/Machine/Copy.lean ====
section
/-! DEFINITION. The copy tokens (43_copy_and_raw.md): one meaning per width, each a line over `copyToken`. -/

namespace Sys2Proof.Machine

/-- `do_copy(offset)` with the header's bits (R109): the whole token is read, then the offset is checked against `OLEN`,
then the bytes are copied, none of them clipped at `TLEN` (R85, R110). The payload ending first is `TruncatedStream`
(R131, R139 (b)). -/
def copyToken (header offset len : Nat) (s : State) : Result :=
  if bitsRemain (copyBits header len) s then
    if offset ≤ s.olen then .next (copyBytes len offset (advance (copyBits header len) s))
    else raise .invalidOffset (advance (copyBits header len) s)
  else raise .truncatedStream (exhaust s)

/-- `CPY5`: header of 8 bits (R106). -/
def execCpy5 (o : BitVec 5) (len : Nat) (s : State) : Result := copyToken 8 (copyOffset o.toNat) len s

/-- `CPY10`: header of 13 bits (R107). -/
def execCpy10 (o : BitVec 10) (len : Nat) (s : State) : Result := copyToken 13 (copyOffset o.toNat) len s

/-- `CPY15`: header of 17 bits (R108). -/
def execCpy15 (o : BitVec 15) (len : Nat) (s : State) : Result := copyToken 17 (copyOffset o.toNat) len s

end Sys2Proof.Machine
end

