-- ==== Sys2Proof/Machine/Lit.lean ====
section
/-! DEFINITION. The MTF literal, `LIT` (42_mtf_literal.md): one meaning per class of the opcode table, each a line over
`litToken`. -/

namespace Sys2Proof.Machine

/-- Take the byte at position `i` of the table, move it to the front and append it (R90, R93). -/
def litTake (i : Fin 256) (s : State) : State :=
  append (mtfTake s.mtf i).1 { s with mtf := (mtfTake s.mtf i).2 }

/-- `do_LIT` with its control bit, for unary count `u` and field `l` (R90): all `6 + 2U` bits are read, then the index
is checked, then the byte is taken. The payload ending first is `TruncatedStream` (R131, R139 (a)). -/
def litToken (u l : Nat) (s : State) : Result :=
  if bitsRemain (litBits u) s then
    if h : litIndex u l < Config.tableSize then .next (litTake ⟨litIndex u l, h⟩ (advance (litBits u) s))
    else raise .indexOutOfRange (advance (litBits u) s)
  else raise .truncatedStream (exhaust s)

/-- `LIT.U0` (R90). -/
def execLitU0 (l : BitVec 4) (s : State) : Result := litToken 0 l.toNat s

/-- `LIT.U1` (R90). -/
def execLitU1 (l : BitVec 5) (s : State) : Result := litToken 1 l.toNat s

/-- `LIT.U2` (R90). -/
def execLitU2 (l : BitVec 6) (s : State) : Result := litToken 2 l.toNat s

/-- `LIT.U3` (R90). -/
def execLitU3 (l : BitVec 7) (s : State) : Result := litToken 3 l.toNat s

/-- `LIT.U4`: legal for `L <= 15` only; above that `IndexOutOfRange` with all 14 bits read (R90, R61 (a)). -/
def execLitU4 (l : BitVec 8) (s : State) : Result := litToken 4 l.toNat s

/-- `LIT.ILL`: the same procedure, which always ends in `IndexOutOfRange` once the token is read (R97). -/
def execLitIll (u l : Nat) (s : State) : Result := litToken u l s

end Sys2Proof.Machine
end

