-- ==== Sys2Proof/Machine/Raw.lean ====
section
/-! DEFINITION. The raw literal run, `RAW` (43_copy_and_raw.md). -/

namespace Sys2Proof.Machine

/-- How many values of a raw run can be read in full from the bits that are left, after the 13-bit header. -/
def rawValuesLeft (s : State) : Nat := (bitsLeft s - 13) / Config.rawWidth

/-- `RAW`: append the data bytes and read the terminator (R103). The table is not touched (R18). Where the payload ends
first it is `TruncatedStream`, and the data bytes read in full by then stay appended (R103, R141). -/
def execRaw (data : List Byte) (s : State) : Result :=
  if bitsRemain (rawBits data.length) s then .next (appendAll data (advance (rawBits data.length) s))
  else raise .truncatedStream (appendAll (data.take (rawValuesLeft s)) (exhaust s))

end Sys2Proof.Machine
end

