-- ==== Sys2Proof/Machine/Dispatch.lean ====
section
/-! DEFINITION. One arm per token of the opcode table, each a direct call of its meaning. -/

namespace Sys2Proof.Machine

/-- A token's effect on the state, its own bits read (R82, R84, R100). -/
def exec (i : Instr) (s : State) : Host.Outcome State Fault Refusal :=
  match i with
  | .litU0 l => Sys2Proof.Machine.execLitU0 l s
  | .litU1 l => Sys2Proof.Machine.execLitU1 l s
  | .litU2 l => Sys2Proof.Machine.execLitU2 l s
  | .litU3 l => Sys2Proof.Machine.execLitU3 l s
  | .litU4 l => Sys2Proof.Machine.execLitU4 l s
  | .litIll u l => Sys2Proof.Machine.execLitIll u l s
  | .cpy5 o len => Sys2Proof.Machine.execCpy5 o len s
  | .raw data => Sys2Proof.Machine.execRaw data s
  | .cpy10 o len => Sys2Proof.Machine.execCpy10 o len s
  | .cpy15 o len => Sys2Proof.Machine.execCpy15 o len s

end Sys2Proof.Machine
end

