-- ==== Sys2Proof/Machine/Sequencer.lean ====
section
/-! DEFINITION. The block's step: the length test, then one whole token (41_sequencer.md). -/

namespace Sys2Proof.Machine

/-- Fetch: what the bits at the cursor spell (R11, R50, R60). -/
def fetch (s : State) : DecodeResult := decode (streamBits s)

/-- Carry out what was fetched: a complete token has its effect; a token that the payload cuts short is
`TruncatedStream` at `CUR = 8 * PLEN`, with the data bytes of an unfinished `RAW` appended (R73, R131, R141). -/
def carryOut (d : DecodeResult) (s : State) : Result :=
  match d with
  | .token i _ => exec i s
  | .truncated data => raise .truncatedStream (appendAll data (exhaust s))

/-- One turn of the block (R82, R126): while `BUSY`, the equality test of the length, made here and nowhere else (R85),
then one token. While not `BUSY` it "does nothing and holds its state" (60_exceptions.md section 7; log 14). -/
def blockStep (s : State) : Result :=
  if s.status = .busy then
    if s.olen = s.tlen.toNat then .next { s with status := .done } else carryOut (fetch s) s
  else .next s

end Sys2Proof.Machine
end

