-- ==== Sys2Proof/Machine/Turn.lean ====
section
/-! DEFINITION. Whose turn it is: the two agents interleaved as the host's coming moves say. -/

namespace Sys2Proof.Machine

/-- One move of the host; `yield` gives the turn to the block. -/
def hostStep (m : HostMove) (s : State) : Result :=
  match m with
  | .writeReg n v => writeRegister n v s
  | .readReg n => readRegister n s
  | .writePayload a b => writePayloadWindow a b s
  | .readResult a => .next (readResultWindow a s)
  | .powerOn => .next (powerOnReset s)
  | .yield => blockStep s

/-- One step of the two agents together: the host's next move if it has one to make, else the block's turn (R126;
log 1). -/
def turn (s : State) : Result :=
  match s.hostMoves with
  | [] => blockStep s
  | m :: ms => hostStep m { s with hostMoves := ms }

end Sys2Proof.Machine
end

