-- ==== Sys2Proof/Machine/Step.lean ====
section
/-! DEFINITION. The machine's step, and the load of one instruction where the step fetches. -/

namespace Sys2Proof.Machine

/-- One step of the machine. -/
def step (s : State) : Host.Outcome State Fault Refusal := turn s

/-- `s` with one instruction placed where the next step fetches it, and all that this takes (log 16). -/
def State.withFetchWord (s : State) (nbits w : Nat) : State := loadForFetch nbits w s

end Sys2Proof.Machine
end

