-- ==== Sys2Proof/Machine/Assembler.lean ====
section
/-! DEFINITION. The spec's own token notation and pseudo-tokens (R64, R65), and the packing of tokens into bytes. -/

namespace Sys2Proof.Machine

/-- `LIT i`: the token whose index is `i`, with the one `(U, L)` that spells it (R57, R64). -/
def litOfIndex (i : Byte) : Instr :=
  if i.toNat < 16 then .litU0 (BitVec.ofNat 4 i.toNat)
  else if i.toNat < 48 then .litU1 (BitVec.ofNat 5 (i.toNat - 16))
  else if i.toNat < 112 then .litU2 (BitVec.ofNat 6 (i.toNat - 48))
  else if i.toNat < 240 then .litU3 (BitVec.ofNat 7 (i.toNat - 112))
  else .litU4 (BitVec.ofNat 8 (i.toNat - 240))

/-- `LIT.raw U, L`: the token with exactly those fields (R64). -/
def litRaw (u l : Nat) : Instr := litOfFields u l

/-- `SYM b`: the `LIT` of the position at which `b` stands in the table (R65). -/
def symToken (t : Table) (b : Byte) : Instr := litOfIndex (BitVec.ofNat 8 (tablePosition t b))

/-- `CPY off, len`: the narrowest copy that can spell the offset, 1 to 32768 (R65). -/
def copyOfOffset (offset len : Nat) : Instr :=
  if offset ≤ 32 then .cpy5 (BitVec.ofNat 5 (offset - 1)) len
  else if offset ≤ 1024 then .cpy10 (BitVec.ofNat 10 (offset - 1)) len
  else .cpy15 (BitVec.ofNat 15 (offset - 1)) len

/-- Pack stream bits into bytes, bit 0 first, the unused high bits of the last byte 0 (R31, R64). -/
def packBits : Bits → List Byte
  | [] => []
  | b0 :: b1 :: b2 :: b3 :: b4 :: b5 :: b6 :: b7 :: bs =>
    BitVec.ofNat 8 (bitsToNat [b0, b1, b2, b3, b4, b5, b6, b7]) :: packBits bs
  | bs => [BitVec.ofNat 8 (bitsToNat bs)]

/-- The payload of a list of tokens (R64). -/
def assemble (tokens : List Instr) : List Byte := packBits (tokens.flatMap encode)

end Sys2Proof.Machine
end

