-- ==== Sys2Proof/Machine/Framing.lean ====
section
/-! DEFINITION. What the host owes the block before START (70_reset_and_hazards.md section 2): surrounding software,
outside the block (00_scope.md section 3), written down as functions that produce the host's moves. -/

namespace Sys2Proof.Machine

/-- A pixel's four channels (R155). DESIGN CHOICE (log 17), safe: the spec gives no bit depth of a channel (N20); the
model holds 8 bits of each, and only the low two are ever used. -/
structure Pixel where
  alpha : Byte
  red : Byte
  green : Byte
  blue : Byte
  deriving DecidableEq, Repr

/-- One pixel gives one byte: the low two bits of each channel, alpha highest (R155). -/
def pixelByte (p : Pixel) : Byte :=
  (p.alpha &&& 3) <<< 6 ||| (p.red &&& 3) <<< 4 ||| (p.green &&& 3) <<< 2 ||| (p.blue &&& 3)

/-- The extracted byte stream, capped at 32767 pixels in row-major order (R155). -/
def extractImage (pixels : List Pixel) : List Byte := (pixels.take Config.pixelCap).map pixelByte

/-- The stream split at 0x4300 into the data block and the code block (R156). DESIGN CHOICE (log 18), unsafe: for a
stream shorter than that the spec decides nothing (N20); the model gives all of it as the data block and an empty code
block, which `frameCodeBlock` reports as `UnsupportedFormat`. -/
def splitImage (stream : List Byte) : List Byte × List Byte :=
  (stream.take Config.boundary, stream.drop Config.boundary)

/-- A big-endian 16-bit length at byte `a` of the code block (R34, R153). -/
def bigEndianAt (code : List Byte) (a : Nat) : Nat := (code.getD a 0).toNat * 256 + (code.getD (a + 1) 0).toNat

/-- What the framing of a code block ends in. -/
inductive Framed where
  /-- The host reports this code and does not start the block (R152, R157). -/
  | fail (code : BitVec 3)
  /-- The host starts the block with this target length and payload (R153, R154). -/
  | load (target : Nat) (payload : List Byte)
  deriving DecidableEq, Repr

/-- The host's framing duties on a code block: the magic (R152), the two lengths (R153), the slice `[8, total_length)`
(R154). A total length below 8 or beyond the code block is the open parameter (R157; log 13). An empty code
block, as of an image too short to have one, fails the magic check (log 18). -/
def frameCodeBlock (code : List Byte) : Framed :=
  if code.take 4 ≠ Config.magic then .fail (errCode .unsupportedFormat)
  else if bigEndianAt code 6 < Config.headerLength ∨ code.length < bigEndianAt code 6 then
    .fail Config.hostBadTotalLengthError
  else .load (bigEndianAt code 4) ((code.take (bigEndianAt code 6)).drop Config.headerLength)

/-- The moves that write bytes to the payload window from address `a` on. -/
def payloadMoves : Nat → List Byte → List HostMove
  | _, [] => []
  | a, b :: bs => .writePayload a b :: payloadMoves (a + 1) bs

/-- The host's part of one transaction up to START: the payload, `PLEN`, `TLEN`, `CMD` (44_host_commands.md). -/
def transactionMoves (target : Nat) (payload : List Byte) : List HostMove :=
  payloadMoves 0 payload ++ [.writeReg 3 payload.length, .writeReg 4 target, .writeReg 0 1]

/-- The decoded bundle (00_scope.md section 7, R162). -/
structure Cartridge where
  data : List Byte
  code : List Byte
  deriving DecidableEq, Repr

/-- On `DONE` the result becomes the cartridge's code; otherwise no cartridge is built (R137, R162). -/
def cartridgeOf (data : List Byte) (s : State) : Option Cartridge :=
  if s.status = .done then some ⟨data, resultBytes s⟩ else none

end Sys2Proof.Machine
end

