-- ==== Sys2Proof/Machine/Procedures.lean ====
section
/-! DEFINITION. The spec's normative pseudocode, procedure by procedure, one bit at a time (files 40 to 43). The step of
the model decodes a whole token and then executes it; the obligation `BlockStepFollowsPseudocode` says that the two are
the same function. -/

namespace Sys2Proof.Machine

/-- What a procedure does: it returns a value and the state so far, or raises a fault in the state reached (R141). -/
inductive Run (α : Type) where
  | ok (a : α) (s : State)
  | raised (e : Err) (s : State)
  deriving Repr

/-- One procedure and then the next; nothing after a raise is executed (00_scope.md section 6). -/
def andThen {α β : Type} (r : Run α) (f : α → State → Run β) : Run β :=
  match r with
  | .ok a s => f a s
  | .raised e s => .raised e s

/-- `read_bit()` (R70, R71). -/
def readBit (s : State) : Run Bool :=
  if s.plen.toNat ≤ s.cur / 8 then .raised .truncatedStream s
  else .ok (payloadBit s s.cur) { s with cur := s.cur + 1 }

/-- The loop of `read_bits`: `k` bits to go, the next of weight `2^i`, `result` so far (R72). -/
def readBitsLoop : Nat → Nat → Nat → State → Run Nat
  | 0, _, result, s => .ok result s
  | k + 1, i, result, s => andThen (readBit s) fun b s => readBitsLoop k (i + 1) (result ||| b.toNat <<< i) s

/-- `read_bits(n)`, for every natural `n` (R72, R74). -/
def readBits (n : Nat) (s : State) : Run Nat := readBitsLoop n 0 0 s

/-- The loop of `read_unary`, `u` ones so far. Each turn reads a bit, so `fuel` above the bits left is never used up. -/
def readUnaryLoop : Nat → Nat → State → Run Nat
  | 0, _, s => .raised .truncatedStream s
  | fuel + 1, u, s => andThen (readBit s) fun b s => if b then readUnaryLoop fuel (u + 1) s else .ok u s

/-- `read_unary()` (R91). -/
def readUnary (s : State) : Run Nat := readUnaryLoop (bitsLeft s + 1) 0 s

/-- `do_LIT()` (R90). -/
def doLit (s : State) : Run Unit :=
  andThen (readUnary s) fun u s =>
    andThen (readBits (Config.litBaseWidth + u) s) fun l s =>
      if h : l + ((2 ^ u - 1) <<< Config.litClassShift) < Config.tableSize then
        .ok () (append (mtfTake s.mtf ⟨_, h⟩).1 { s with mtf := (mtfTake s.mtf ⟨_, h⟩).2 })
      else .raised .indexOutOfRange s

/-- `read_width()` (R101). -/
def readWidth (s : State) : Run Nat :=
  andThen (readBit s) fun b s =>
    if b then andThen (readBit s) fun b s => .ok (if b then 5 else 10) s else .ok 15 s

/-- The loop of `do_RAW`; each turn reads eight bits, so `fuel` above the bits left is never used up (R103). -/
def doRawLoop : Nat → State → Run Unit
  | 0, s => .raised .truncatedStream s
  | fuel + 1, s =>
    andThen (readBits Config.rawWidth s) fun v s =>
      if v = 0 then .ok () s else doRawLoop fuel (append (BitVec.ofNat 8 v) s)

/-- `do_RAW()` (R103). -/
def doRaw (s : State) : Run Unit := doRawLoop (bitsLeft s + 1) s

/-- The loop of `read_length`, `length` so far; each turn reads three bits (R105). -/
def readLengthLoop : Nat → Nat → State → Run Nat
  | 0, _, s => .raised .truncatedStream s
  | fuel + 1, length, s =>
    andThen (readBits Config.lenGroupWidth s) fun part s =>
      if part = Config.lenContinue then readLengthLoop fuel (length + part) s else .ok (length + part) s

/-- `read_length()` (R105). -/
def readLength (s : State) : Run Nat := readLengthLoop (bitsLeft s + 1) Config.lenBase s

/-- `do_copy(offset)` (R109, R110). -/
def doCopy (offset : Nat) (s : State) : Run Unit :=
  andThen (readLength s) fun length s =>
    if s.olen < offset then .raised .invalidOffset s else .ok () (copyBytes length offset s)

/-- `do_copy_class()` (R100, R102). -/
def doCopyClass (s : State) : Run Unit :=
  andThen (readWidth s) fun w s =>
    andThen (readBits w s) fun o s => if w = 10 ∧ o = 0 then doRaw s else doCopy (o + Config.offsetBias) s

/-- `step()`, a raise ending in the fault state of R136 (R82, R83, R126). -/
def pseudocodeStep (s : State) : Result :=
  if s.olen = s.tlen.toNat then .next { s with status := .done }
  else
    match andThen (readBit s) fun c s => if c then doLit s else doCopyClass s with
    | .ok _ s => .next s
    | .raised e s => raise e s

end Sys2Proof.Machine
end

