-- ==== Sys2Proof/Safety.lean ====
section
/-! DEFINITION. The terms claims use: the block alone for some turns, what a decode owns, and the invariant. -/

namespace Sys2Proof

open Machine

/-- The block alone for `k` turns. A turn of the block always answers a next state; should it not, the run stays. -/
def runBlock : Nat → State → State
  | 0, s => s
  | k + 1, s =>
    match blockStep s with
    | .next t => runBlock k t
    | _ => s

/-- What the host can tell of a decode's outcome, and what the next turn depends on: the registers and memories of the
decode (R5, R27). -/
structure DecodeView where
  status : Status
  err : Err
  cur : Nat
  olen : Nat
  out : Memory
  mtf : Table
  deriving DecidableEq, Repr

/-- The part of a state that belongs to one decode (R27). -/
def decodeView (s : State) : DecodeView := ⟨s.status, s.err, s.cur, s.olen, s.out, s.mtf⟩

/-- The inputs of a decode are the same: `PLEN`, `TLEN`, and the payload bytes below `PLEN` (R5, R80). -/
def sameInputs (s t : State) : Prop :=
  s.plen = t.plen ∧ s.tlen = t.tlen ∧ ∀ a, a < s.plen.toNat → payloadByte s a = payloadByte t a

/-- The token is one of the copy class, told by the control bit 0 (R51). -/
def isCopyClass : Instr → Bool
  | .litU0 _ | .litU1 _ | .litU2 _ | .litU3 _ | .litU4 _ | .litIll _ _ => false
  | .cpy5 _ _ | .raw _ | .cpy10 _ _ | .cpy15 _ _ => true

/-- The unary count and the field `L` of a `LIT` (R52). -/
def litFields : Instr → Option (Nat × Nat)
  | .litU0 l => some (0, l.toNat)
  | .litU1 l => some (1, l.toNat)
  | .litU2 l => some (2, l.toNat)
  | .litU3 l => some (3, l.toNat)
  | .litU4 l => some (4, l.toNat)
  | .litIll u l => some (u, l)
  | .cpy5 _ _ | .raw _ | .cpy10 _ _ | .cpy15 _ _ => none

/-- The header bits, the offset and the length of a copy (R53, R58). -/
def copyFields : Instr → Option (Nat × Nat × Nat)
  | .cpy5 o len => some (8, o.toNat + 1, len)
  | .cpy10 o len => some (13, o.toNat + 1, len)
  | .cpy15 o len => some (17, o.toNat + 1, len)
  | .litU0 _ | .litU1 _ | .litU2 _ | .litU3 _ | .litU4 _ | .litIll _ _ | .raw _ => none

/-- The data bytes of a token that the block has read in full when the payload ends inside it: those of a `RAW` whose
eight bits are all there (R103, R141). -/
def dataReadBeforeEnd (i : Instr) (s : State) : List Byte :=
  match i with
  | .raw data => data.take ((8 * s.plen.toNat - s.cur - 13) / 8)
  | _ => []

/-- What no token and no turn of the block touches: the inputs of the decode, which the host alone writes (R14, R15,
R20, R43), and the model's own fields for the host agent and the free values. -/
structure KeepsHostSide (s t : State) : Prop where
  payload : t.payload = s.payload
  plen : t.plen = s.plen
  tlen : t.tlen = s.tlen
  hostMoves : t.hostMoves = s.hostMoves
  readData : t.readData = s.readData
  powerOns : t.powerOns = s.powerOns
  draws : t.draws = s.draws

/-- `STATUS` and `ERR` are as they were: the step raised no fault and ended no decode. -/
structure KeepsStatus (s t : State) : Prop where
  status : t.status = s.status
  err : t.err = s.err

/-- The `OUT` bytes outside the `n` positions from `a` on read as before. -/
def outSameOutside (a n : Nat) (s t : State) : Prop :=
  ∀ p, ¬ (a ≤ p ∧ p < a + n) → memRead t.out p = memRead s.out p

/-- A `LIT` of `bits` bits and index `i` has had its effect (R90, R93): the cursor is past the token, the byte at
position `i` of the table stands at `OUT[OLEN]` and at the front of the table, the entries before it have moved up by
one, and nothing else has changed. -/
structure LitEffect (bits i : Nat) (s t : State) : Prop where
  cur : t.cur = s.cur + bits
  olen : t.olen = s.olen + 1
  appended : memRead t.out s.olen = s.mtf.entries[i]?
  table : t.mtf.entries = s.mtf.entries[i]?.toList ++ s.mtf.entries.take i ++ s.mtf.entries.drop (i + 1)
  out : outSameOutside s.olen 1 s t
  status : KeepsStatus s t
  host : KeepsHostSide s t

/-- A copy of `bits` bits has had its effect (R109, R112): `len` bytes are appended, the `j`-th of them
`OUT[s - offset + (j mod offset)]` for `s` the old `OLEN`, and nothing else has changed. -/
structure CopyEffect (bits offset len : Nat) (s t : State) : Prop where
  cur : t.cur = s.cur + bits
  olen : t.olen = s.olen + len
  appended : ∀ j, j < len → memRead t.out (s.olen + j) = some (outByte s (s.olen - offset + j % offset))
  table : t.mtf = s.mtf
  out : outSameOutside s.olen len s t
  status : KeepsStatus s t
  host : KeepsHostSide s t

/-- A `RAW` of `bits` bits has had its effect (R103): its data bytes are appended in order, and nothing else has
changed. -/
structure RawEffect (bits : Nat) (data : List Byte) (s t : State) : Prop where
  cur : t.cur = s.cur + bits
  olen : t.olen = s.olen + data.length
  appended : ∀ j, j < data.length → memRead t.out (s.olen + j) = data[j]?
  table : t.mtf = s.mtf
  out : outSameOutside s.olen data.length s t
  status : KeepsStatus s t
  host : KeepsHostSide s t

/-- The fault code of a `LIT` with this unary count is one that claims may rest on: with `U >= 29` the document does not
show which of its two faults is reported (93_implementation_defined.md U3; log 11). -/
def codeShown (u : Nat) : Prop := u < 29

/-- The code is one that claims may rest on, for a token. -/
def tokenCodeShown (i : Instr) : Prop := ∀ u l, litFields i = some (u, l) → codeShown u

/-- The code is one that claims may rest on, for the bits at a token boundary. -/
def bitsCodeShown (bs : Bits) : Prop := ∀ u rest, bs = true :: (List.replicate u true ++ false :: rest) → codeShown u

/-- The state `t` is that of a `TruncatedStream` fault raised in `s` after the bytes `data` were appended (R131, R136,
R141): the cursor is at the end of the payload, and nothing but `CUR`, `OUT`, `OLEN`, `STATUS` and `ERR` has changed.
Where the code is not `shown` (U3), it may be that of `IndexOutOfRange`. -/
structure TruncatedEffect (shown : Prop) (data : List Byte) (s t : State) : Prop where
  status : t.status = .error
  err : t.err = .truncatedStream ∨ ¬ shown ∧ t.err = .indexOutOfRange
  cur : t.cur = 8 * s.plen.toNat
  olen : t.olen = s.olen + data.length
  appended : ∀ j, j < data.length → memRead t.out (s.olen + j) = data[j]?
  table : t.mtf = s.mtf
  out : outSameOutside s.olen data.length s t
  host : KeepsHostSide s t

/-- The payload read as one little-endian natural, `S` of R33: the sum of `P[a] * 2^(8a)` for `a < n`. -/
def payloadNumber (s : State) : Nat → Nat
  | 0 => 0
  | n + 1 => payloadNumber s n + (payloadByte s n).toNat * 2 ^ (8 * n)

/-- The invariant of the machine, over both agents' steps. -/
structure Inv (s : State) : Prop where
  /-- The payload memory is in its canonical form. -/
  payload_wf : Memory.wf s.payload = true
  /-- Every payload address exists (R10, R24). -/
  payload_range : ∀ c ∈ s.payload, c.1 < Config.payloadCapacity
  /-- The output memory is in its canonical form. -/
  out_wf : Memory.wf s.out = true
  /-- Exactly the positions below `OLEN` hold a value (R13, R19). -/
  out_filled : ∀ a, (memRead s.out a).isSome = true ↔ a < s.olen
  /-- Since the first START the table is a permutation (R16, R94). -/
  table_permutation : s.status ≠ .idle → Table.isPermutation s.mtf
  /-- `ERR != 0` exactly when `STATUS == ERROR` (R22). -/
  err_iff : s.err ≠ .none ↔ s.status = .error
  /-- The block writes only the codes 0, 2, 3, 4 to `ERR` (R22, R134). -/
  err_block : blockWrites s.err = true
  /-- `CUR <= 8 * PLEN` during a decode (R12, R75 (b)). -/
  cur_le : s.status = .busy → s.cur ≤ payloadBits s
  /-- `CUR` fits its 19 bits (R12). -/
  cur_width : s.cur ≤ 524280
  /-- At most three bytes are appended per bit read (R13). -/
  olen_le : s.olen ≤ 3 * s.cur

end Sys2Proof
end

