-- ==== Sys2Proof/Certificates/Slice0/Obligations.lean ====
section
/-! DEFINITION. The statements for the provers. Each docstring names the rule of spec/ it comes from. -/

open Sys2Proof Sys2Proof.Machine

/-! ## Reset and the host's moves -/

/-- 70_reset_and_hazards.md section 1 (R150): the registers after power-on reset. That no byte of memory is listed is
the model's reading of "unspecified" (log 2). -/
def Obligations.ResetLeavesIdleAndZero : Prop :=
  State.reset.status = .idle ∧ errCode State.reset.err = 0 ∧ State.reset.plen = 0 ∧ State.reset.tlen = 0 ∧
  State.reset.cur = 0 ∧ State.reset.olen = 0 ∧
  ∀ a, memRead State.reset.payload a = none ∧ memRead State.reset.out a = none

/-- 44_host_commands.md (R125): power-on reset reaches those register values from any state, `BUSY` included. -/
def Obligations.PowerOnResetsFromAnyState : Prop :=
  ∀ (s : State) (ms : List HostMove), s.hostMoves = .powerOn :: ms →
    ∃ t, step s = .next t ∧ t.status = .idle ∧ t.err = .none ∧ t.plen = 0 ∧ t.tlen = 0 ∧ t.cur = 0 ∧ t.olen = 0 ∧
      (∀ a, memRead t.payload a = none ∧ memRead t.out a = none) ∧ t.hostMoves = ms

/-- R120: START, from every state that is not `BUSY`. -/
def Obligations.StartBeginsFreshDecode : Prop :=
  ∀ (s : State) (v : Nat) (ms : List HostMove), s.hostMoves = .writeReg 0 v :: ms → v % 2 = 1 → s.status ≠ .busy →
    ∃ t, step s = .next t ∧ t.cur = 0 ∧ t.olen = 0 ∧ (∀ a, memRead t.out a = none) ∧
      (∀ i : Fin 256, (tableAt t.mtf i).toNat = i.val) ∧ t.err = .none ∧ t.status = .busy ∧
      t.plen = s.plen ∧ t.tlen = s.tlen ∧ t.payload = s.payload ∧ t.hostMoves = ms

/-- 44_host_commands.md (R121, R122, R124): a START while `BUSY` changes nothing, and no host move but power-on reset
stops or disturbs a running decode. That a write to a read-only register (1, 2, 5, 6) changes nothing either, and what a
result-window read while `BUSY` leaves alone, are the model's choice (log 8, log 6). -/
def Obligations.RunningDecodeIsUndisturbed : Prop :=
  ∀ (s : State) (m : HostMove) (ms : List HostMove), s.hostMoves = m :: ms → s.status = .busy →
    (∀ v, m = .writeReg 0 v → step s = .next { s with hostMoves := ms }) ∧
    (m ≠ .powerOn → m ≠ .yield → ∀ t, step s = .next t →
      decodeView t = decodeView s ∧ t.payload = s.payload ∧ t.plen = s.plen ∧ t.tlen = s.tlen)

/-- 10_state.md section 6 (R23, R24, R122): the length registers keep the low 16 bits of what is written, and are
locked while `BUSY`; a `CMD` write with bit 0 clear does nothing. -/
def Obligations.LengthWritesKeepLowBits : Prop :=
  ∀ (s : State) (v : Nat) (ms : List HostMove),
    (s.hostMoves = .writeReg 3 v :: ms → s.status ≠ .busy →
      step s = .next { s with hostMoves := ms, plen := BitVec.ofNat 16 (v % 65536) }) ∧
    (s.hostMoves = .writeReg 4 v :: ms → s.status ≠ .busy →
      step s = .next { s with hostMoves := ms, tlen := BitVec.ofNat 16 (v % 65536) }) ∧
    (s.hostMoves = .writeReg 3 v :: ms ∨ s.hostMoves = .writeReg 4 v :: ms → s.status = .busy →
      step s = .next { s with hostMoves := ms }) ∧
    (s.hostMoves = .writeReg 0 v :: ms → v % 2 = 0 → step s = .next { s with hostMoves := ms })

/-- 10_state.md section 6 and 44_host_commands.md (R21 to R24, R124): what each register reads as, with no side
effect on the block. -/
def Obligations.RegisterReadsHaveNoSideEffect : Prop :=
  ∀ (s : State) (n : Nat) (ms : List HostMove), s.hostMoves = .readReg n :: ms → n ≤ 6 →
    ∃ v, step s = .next { s with hostMoves := ms, readData := v } ∧
      (n = 0 → v = 0) ∧
      (n = 1 → v = match s.status with | .idle => 0 | .busy => 1 | .done => 2 | .error => 3) ∧
      (n = 2 → v = match s.err with
        | .none => 0 | .unsupportedFormat => 1 | .truncatedStream => 2 | .invalidOffset => 3
        | .indexOutOfRange => 4 | .ioError => 5) ∧
      (n = 3 → v = s.plen.toNat) ∧ (n = 4 → v = s.tlen.toNat) ∧ (n = 5 → v = s.cur) ∧ (n = 6 → v = s.olen)

/-- 44_host_commands.md (R123): at `DONE` the host reads the bytes of the result. In any other status the read returns
the next free value: the model's form of "an unspecified value" (log 6). -/
def Obligations.ResultWindowShowsOnlyResults : Prop :=
  ∀ (s : State) (a : Nat) (ms : List HostMove), s.hostMoves = .readResult a :: ms →
    (Inv s → s.status = .done → s.olen = s.tlen.toNat → a < s.tlen.toNat →
      ∃ b, memRead s.out a = some b ∧ step s = .next { s with hostMoves := ms, readData := b.toNat }) ∧
    (s.status ≠ .done →
      step s = .next { s with hostMoves := ms, readData := (Config.unspecifiedRead s.draws).toNat,
                              draws := s.draws + 1 })

/-- 10_state.md section 6 (R24): a byte written through the payload window lands there, and nothing else changes. -/
def Obligations.PayloadWriteLands : Prop :=
  ∀ (s : State) (a : Nat) (b : Byte) (ms : List HostMove), s.hostMoves = .writePayload a b :: ms → a ≤ 65534 →
    s.status ≠ .busy →
    ∃ p, step s = .next { s with hostMoves := ms, payload := p } ∧ memRead p a = some b ∧
      ∀ a', a' ≠ a → memRead p a' = memRead s.payload a'

/-- The model's own stops (log 9, log 10): a register number or payload address that the map of 10_state.md section 6
does not have faults, and a payload write while `BUSY` is refused. -/
def Obligations.MeaninglessHostMovesStop : Prop :=
  ∀ (s : State) (n v a : Nat) (b : Byte) (ms : List HostMove),
    (s.hostMoves = .writeReg n v :: ms ∨ s.hostMoves = .readReg n :: ms → 6 < n →
      step s = .fault (.noSuchRegister n)) ∧
    (s.hostMoves = .writePayload a b :: ms → 65534 < a → step s = .fault (.noSuchPayloadAddress a)) ∧
    (s.hostMoves = .writePayload a b :: ms → a ≤ 65534 → s.status = .busy →
      step s = .refused (.payloadWriteWhileBusy a))

/-- 44_host_commands.md, the whole transaction: writing a payload, the two lengths and START leaves the block `BUSY` at
bit 0 with exactly those inputs. -/
def Obligations.TransactionLoadsAndStarts : Prop :=
  ∀ (s : State) (target : Nat) (payload : List Byte), s.status ≠ .busy → payload.length ≤ 65535 → target ≤ 65535 →
    ∃ t, Host.Core.run Sys2Proof.core (payload.length + 3)
        { s with hostMoves := transactionMoves target payload } = .next t ∧
      t.status = .busy ∧ t.cur = 0 ∧ t.olen = 0 ∧ t.err = .none ∧ t.hostMoves = [] ∧
      t.plen.toNat = payload.length ∧ t.tlen.toNat = target ∧
      ∀ a, a < payload.length → memRead t.payload a = payload[a]?

/-! ## The bit reader -/

/-- R70 and R71: `read_bit` returns the bit at the cursor and adds 1, and fails exactly when `CUR >= 8 * PLEN`,
changing nothing. -/
def Obligations.ReadBitAdvancesOrFails : Prop :=
  ∀ s : State,
    (s.cur < 8 * s.plen.toNat →
      readBit s = .ok ((payloadByte s (s.cur / 8)).getLsbD (s.cur % 8)) { s with cur := s.cur + 1 }) ∧
    (8 * s.plen.toNat ≤ s.cur → readBit s = .raised .truncatedStream s)

/-- 20_memory.md (R33, the general formula): a field that starts at bit `c` has the value `(S >> c) & (2^n - 1)`, for
`S` the payload as one little-endian number. -/
def Obligations.FieldIsSliceOfPayloadNumber : Prop :=
  ∀ (s : State) (n : Nat), s.cur + n ≤ 8 * s.plen.toNat →
    readBits n s = .ok (payloadNumber s s.plen.toNat >>> s.cur % 2 ^ n) { s with cur := s.cur + n }

/-- 40_bitreader.md (R73): a field the payload does not hold in full consumes what is left and fails at
`CUR = 8 * PLEN`. -/
def Obligations.ShortFieldConsumesTheRest : Prop :=
  ∀ (s : State) (n : Nat), s.cur ≤ 8 * s.plen.toNat → 8 * s.plen.toNat < s.cur + n →
    readBits n s = .raised .truncatedStream { s with cur := 8 * s.plen.toNat }

/-- R91: `read_unary` counts the ones before the first zero and consumes that zero; ones to the end of the payload are
`TruncatedStream`. -/
def Obligations.UnaryCountsOnesToTheZero : Prop :=
  ∀ (s : State) (u : Nat),
    (∀ rest, streamBits s = List.replicate u true ++ false :: rest →
      readUnary s = .ok u { s with cur := s.cur + u + 1 }) ∧
    (s.cur ≤ 8 * s.plen.toNat → streamBits s = List.replicate u true →
      readUnary s = .raised .truncatedStream { s with cur := 8 * s.plen.toNat })

/-! ## Encoding -/

/-- Decode and encode agree for every token and every operand, whatever bits follow (30_encoding.md sections 2, 3). -/
def Obligations.DecodeEncodeRoundTrip : Prop :=
  ∀ (i : Instr) (rest : Bits), wellFormed i = true → decode (encode i ++ rest) = .token i rest

/-- Every complete token that is decoded has one spelling, the one the encoder writes, and takes exactly its bits
(30_encoding.md sections 2 to 4). -/
def Obligations.EncodeDecodeRoundTrip : Prop :=
  ∀ (bs rest : Bits) (i : Instr), decode bs = .token i rest → wellFormed i = true ∧ bs = encode i ++ rest

/-- 30_encoding.md section 5 (R62): the payload ends inside a token exactly when the bits are a proper prefix of a
token, so every bit string is decodable and no token is a prefix of another. -/
def Obligations.TruncatedIffProperPrefix : Prop :=
  ∀ bs : Bits, (∃ data, decode bs = .truncated data) ↔
    ∃ i, wellFormed i = true ∧ bs <+: encode i ∧ bs ≠ encode i

/-- 30_encoding.md section 4 (R60): the first row of the opcode table that matches the bits of a token is its own. -/
def Obligations.OpcodeRowSelectsTheToken : Prop :=
  ∀ (i : Instr) (rest : Bits), wellFormed i = true → rowOf (encode i ++ rest) = some (mnemonic i)

/-- 30_encoding.md section 3 (after R57): every table index has exactly one `(U, L)` spelling, and it has `U <= 4`. -/
def Obligations.TableIndexHasOneSpelling : Prop :=
  ∀ idx, idx < 256 → ∃ u l, u ≤ 4 ∧ l < 2 ^ (4 + u) ∧ litIndex u l = idx ∧
    ∀ u' l', l' < 2 ^ (4 + u') → litIndex u' l' = idx → u' = u ∧ l' = l

/-- 30_encoding.md section 6 (R64): the notation `LIT i` names the token whose index is `i`. -/
def Obligations.LitNotationNamesItsIndex : Prop :=
  ∀ i : Byte, ∃ u l, litFields (litOfIndex i) = some (u, l) ∧ u ≤ 4 ∧ l < 2 ^ (4 + u) ∧ litIndex u l = i.toNat

/-- A few tokens of 95_test_vectors.md, bit by bit: `LIT 101`, `LIT.raw 5, 0`, `CPY5 1,3`, `CPY10 2,4`,
`CPY15 1,20`, `RAW 48 69`. -/
def Obligations.SampleWordsDecode : Prop :=
  decode [true, true, true, false, true, false, true, false, true, true] = .token (.litU2 53) [] ∧
  decode [true, true, true, true, true, true, false, false, false, false, false, false, false, false, false, false]
    = .token (.litIll 5 0) [] ∧
  decode [false, true, true, false, false, false, false, false, false, false, false] = .token (.cpy5 0 3) [] ∧
  decode [false, true, false, true, false, false, false, false, false, false, false, false, false, true, false, false]
    = .token (.cpy10 1 4) [] ∧
  decode ([false, false] ++ List.replicate 15 false ++ [true, true, true, true, true, true, true, true, false])
    = .token (.cpy15 0 20) [] ∧
  decode ([false, true, false] ++ List.replicate 10 false ++ [false, false, false, true, false, false, true, false,
    true, false, false, true, false, true, true, false] ++ List.replicate 8 false) = .token (.raw [0x48, 0x69]) []

/-! ## The decode loop -/

/-- A step runs the decoded token (41_sequencer.md, R82 to R84): while `BUSY` with the target length not reached, when
the bits at the cursor decode to a token, the step is that token's meaning and nothing around it; a host that yields
its turn only loses that move. -/
def Obligations.StepRunsDecodedToken : Prop :=
  ∀ (s : State) (i : Instr) (rest : Bits), s.status = .busy → s.olen ≠ s.tlen.toNat → fetch s = .token i rest →
    (s.hostMoves = [] → step s = exec i s) ∧
    (∀ ms, s.hostMoves = .yield :: ms → step s = exec i { s with hostMoves := ms })

/-- 60_exceptions.md (R131, R136, R141): when the payload ends inside the token at the cursor, the step takes
`TruncatedStream` at `CUR = 8 * PLEN`, the data bytes of an unfinished raw run appended and nothing else changed. The
code is left open where U3 forbids a claim to rest on it (log 11). -/
def Obligations.CutTokenTakesTruncatedStream : Prop :=
  ∀ (s : State) (data : List Byte), s.hostMoves = [] → s.status = .busy → s.olen ≠ s.tlen.toNat →
    s.cur ≤ 8 * s.plen.toNat → fetch s = .truncated data →
    ∃ t, step s = .next t ∧ TruncatedEffect (bitsCodeShown (streamBits s)) data s t

/-- 60_exceptions.md (R140) and 41_sequencer.md (R89): at a token boundary with `OLEN == TLEN` the decode succeeds,
whatever the payload holds. -/
def Obligations.LengthTestComesFirst : Prop :=
  ∀ s : State, s.hostMoves = [] → s.status = .busy → s.olen = s.tlen.toNat → step s = .next { s with status := .done }

/-- 60_exceptions.md section 7: while not `BUSY` the block does nothing and holds its state (log 14). -/
def Obligations.IdleBlockHoldsState : Prop :=
  ∀ s : State, s.hostMoves = [] → s.status ≠ .busy → step s = .next s

/-- 44_host_commands.md (R126): while `BUSY` the block is never stuck. That a turn while not `BUSY` is a step at all,
one that changes nothing, is the model's choice (log 14). -/
def Obligations.BlockIsNeverStuck : Prop :=
  ∀ s : State, ∃ t, blockStep s = .next t

/-- The decoded step is the spec's normative pseudocode, read bit by bit (R70, R72, R82, R90, R91, R93, R100, R101,
R103, R105, R109): in every `BUSY` state the two give the same next state, faults included. -/
def Obligations.BlockStepFollowsPseudocode : Prop :=
  ∀ s : State, s.status = .busy → blockStep s = pseudocodeStep s

/-- A token whose encoding the payload cuts short has the same effect through `exec` as the step gives the bits that
are there (R131, R139, R141). -/
def Obligations.CutTokenAgreesWithItsMeaning : Prop :=
  ∀ (s : State) (i : Instr), wellFormed i = true → streamBits s <+: encode i → streamBits s ≠ encode i →
    carryOut (fetch s) s = exec i s

/-! ## The MTF literal -/

/-- 42_mtf_literal.md (R90, R93): a `LIT` of classes 0 to 3, and of class 4 with `L <= 15`, appends the byte at its
index, moves it to the front, and changes nothing else. -/
def Obligations.LitAppendsAndMovesToFront : Prop :=
  ∀ s : State,
    (∀ l, s.cur + 6 ≤ 8 * s.plen.toNat → ∃ t, exec (.litU0 l) s = .next t ∧ LitEffect 6 l.toNat s t) ∧
    (∀ l, s.cur + 8 ≤ 8 * s.plen.toNat → ∃ t, exec (.litU1 l) s = .next t ∧ LitEffect 8 (l.toNat + 16) s t) ∧
    (∀ l, s.cur + 10 ≤ 8 * s.plen.toNat → ∃ t, exec (.litU2 l) s = .next t ∧ LitEffect 10 (l.toNat + 48) s t) ∧
    (∀ l, s.cur + 12 ≤ 8 * s.plen.toNat → ∃ t, exec (.litU3 l) s = .next t ∧ LitEffect 12 (l.toNat + 112) s t) ∧
    (∀ l, s.cur + 14 ≤ 8 * s.plen.toNat → l.toNat ≤ 15 →
      ∃ t, exec (.litU4 l) s = .next t ∧ LitEffect 14 (l.toNat + 240) s t)

/-- 60_exceptions.md (R133): a `LIT` raises `IndexOutOfRange` exactly when its index is 256 or more, after the whole
token has been read and before the table or the output is touched. For `U >= 29` the code is left open, since U3 forbids
a claim to rest on it (log 11). -/
def Obligations.LitIndexOutOfRange : Prop :=
  ∀ (s : State) (i : Instr) (u l : Nat), litFields i = some (u, l) → s.cur + (6 + 2 * u) ≤ 8 * s.plen.toNat →
    (256 ≤ l + (2 ^ u - 1) * 16 →
      ∃ e, exec i s = .next { s with cur := s.cur + (6 + 2 * u), err := e, status := .error } ∧
        (e = .indexOutOfRange ∨ ¬ codeShown u ∧ e = .truncatedStream)) ∧
    (l + (2 ^ u - 1) * 16 < 256 → ∃ t, exec i s = .next t ∧ KeepsStatus s t)

/-- 42_mtf_literal.md (R97): `LIT.ILL` is read in full and then always faults: with `IndexOutOfRange`, but for the code
of `U >= 29`, which U3 leaves open (log 11). -/
def Obligations.LitIllAlwaysFaults : Prop :=
  ∀ (s : State) (u l : Nat), 5 ≤ u → s.cur + (6 + 2 * u) ≤ 8 * s.plen.toNat →
    ∃ e, exec (.litIll u l) s = .next { s with cur := s.cur + (6 + 2 * u), err := e, status := .error } ∧
      (e = .indexOutOfRange ∨ ¬ codeShown u ∧ e = .truncatedStream)

/-- R93: the byte returned, and where every entry of the table goes. -/
def Obligations.MtfTakeMovesEntries : Prop :=
  ∀ (t : Table) (i : Fin 256),
    t.entries[i.val]? = some (mtfTake t i).1 ∧ (mtfTake t i).2.entries[0]? = some (mtfTake t i).1 ∧
    (∀ j, j < i.val → (mtfTake t i).2.entries[j + 1]? = t.entries[j]?) ∧
    (∀ j, i.val < j → (mtfTake t i).2.entries[j]? = t.entries[j]?)

/-- R94: `mtf_take` only rearranges the entries, so the table is a permutation at every token boundary of a decode, and
every byte value is named by some index. -/
def Obligations.MtfTakeKeepsPermutation : Prop :=
  (∀ (t : Table) (i : Fin 256), (mtfTake t i).2.entries.Perm t.entries) ∧
  (∀ (s : State) (k : Nat), Table.isPermutation (runBlock k (start s)).mtf) ∧
  (∀ t : Table, Table.isPermutation t → ∀ b : Byte, ∃ i : Fin 256, tableAt t i = b)

/-- 42_mtf_literal.md (R95): the corner cases of `mtf_take`: position 0, position 255, and the old front. -/
def Obligations.MtfTakeCornerCases : Prop :=
  ∀ t : Table,
    mtfTake t 0 = (tableAt t 0, t) ∧
    (∀ j, j < 255 → (mtfTake t 255).2.entries[j + 1]? = t.entries[j]?) ∧
    (∀ i : Fin 256, 1 ≤ i.val → tableAt (mtfTake t i).2 1 = tableAt t 0) ∧
    (∀ i : Fin 256, mtfTake (mtfTake t i).2 0 = (tableAt t i, (mtfTake t i).2))

/-- 30_encoding.md section 6 (R65): the pseudo-token `SYM b` appends `b` and brings it to the front. -/
def Obligations.SymTokenAppendsItsByte : Prop :=
  ∀ (s : State) (b : Byte), Table.isPermutation s.mtf → s.cur + 14 ≤ 8 * s.plen.toNat →
    ∃ t, exec (symToken s.mtf b) s = .next t ∧ memRead t.out s.olen = some b ∧ t.olen = s.olen + 1 ∧ tableAt t.mtf 0 = b ∧
      KeepsStatus s t

/-! ## Copies and the raw run -/

/-- R112: a copy appends the last `offset` bytes of the output, repeated cyclically, `len` bytes in all and none
clipped, with the rest of the state unchanged. -/
def Obligations.CopyAppendsRepeatedOutput : Prop :=
  ∀ (s : State) (i : Instr) (header offset len : Nat), copyFields i = some (header, offset, len) →
    s.cur + copyBits header len ≤ 8 * s.plen.toNat → offset ≤ s.olen →
    ∃ t, exec i s = .next t ∧ CopyEffect (copyBits header len) offset len s t

/-- R132: a copy whose offset exceeds `OLEN` takes `InvalidOffset`, after the whole token has been read and before a
byte is appended; `RAW` never does. -/
def Obligations.CopyBeyondOutputFaults : Prop :=
  (∀ (s : State) (i : Instr) (header offset len : Nat), copyFields i = some (header, offset, len) →
    s.cur + copyBits header len ≤ 8 * s.plen.toNat → s.olen < offset →
    exec i s = .next { s with cur := s.cur + copyBits header len, err := .invalidOffset, status := .error }) ∧
  (∀ (s t : State) (data : List Byte), exec (.raw data) s = .next t → t.err = .invalidOffset → s.err = .invalidOffset)

/-- 30_encoding.md section 5 (R63 (a)): the spellings of one offset at different widths behave alike but for their bit
length. -/
def Obligations.OffsetSpellingsBehaveAlike : Prop :=
  ∀ (s : State) (i j : Instr) (h1 h2 offset len : Nat), copyFields i = some (h1, offset, len) →
    copyFields j = some (h2, offset, len) → s.cur + copyBits h1 len ≤ 8 * s.plen.toNat →
    s.cur + copyBits h2 len ≤ 8 * s.plen.toNat →
    ∃ t u, exec i s = .next t ∧ exec j s = .next u ∧ { t with cur := 0 } = { u with cur := 0 } ∧
      t.cur + h2 = u.cur + h1

/-- 43_copy_and_raw.md (R103): `RAW` appends its data bytes in order, at `OLEN == 0` as well, and leaves the table
alone. -/
def Obligations.RawAppendsItsData : Prop :=
  ∀ (s : State) (data : List Byte), s.cur + (21 + 8 * data.length) ≤ 8 * s.plen.toNat →
    ∃ t, exec (.raw data) s = .next t ∧ RawEffect (21 + 8 * data.length) data s t

/-- R18: the copy tokens and `RAW` neither write nor read the table, and no host read shows it. -/
def Obligations.OnlyLitTouchesTheTable : Prop :=
  (∀ (i : Instr) (s t : State), isCopyClass i = true → exec i s = .next t →
    t.mtf = s.mtf ∧ ∀ m : Table, exec i { s with mtf := m } = .next { t with mtf := m }) ∧
  (∀ (s : State) (m : Table) (n a : Nat),
    registerValue n { s with mtf := m } = registerValue n s ∧
    readResultWindow a { s with mtf := m } = { readResultWindow a s with mtf := m })

/-- 60_exceptions.md (R131, R136, R141), for every row of the opcode table: a token for which the payload has too few
bits left takes `TruncatedStream` at `CUR = 8 * PLEN`; only the data bytes of a `RAW` read in full by then are
appended. The code is left open where U3 forbids a claim to rest on it (log 11). -/
def Obligations.EveryTokenCutShortFaults : Prop :=
  ∀ (i : Instr) (s : State), s.cur ≤ 8 * s.plen.toNat → 8 * s.plen.toNat < s.cur + tokenBits i →
    ∃ t, exec i s = .next t ∧ TruncatedEffect (tokenCodeShown i) (dataReadBeforeEnd i s) s t

/-! ## The machine as a whole -/

/-- The invariant holds at reset. -/
def Obligations.ResetMeetsInvariant : Prop := Inv State.reset

/-- Every step of the block and of the host keeps the invariant (10_state.md R12, R13, R16, R19, R22; R134). -/
def Obligations.StepKeepsInvariant : Prop :=
  ∀ s t : State, Inv s → step s = .next t → Inv t

/-- 10_state.md (R12, R13): under the invariant the naturals `CUR` and `OLEN` fit the registers' 19 and 21 bits. -/
def Obligations.CountersFitTheirRegisters : Prop :=
  ∀ s : State, Inv s → s.cur < 2 ^ 19 ∧ s.olen < 2 ^ 21

/-- 60_exceptions.md (R130, R136, R137): a turn of the block that ends in `ERROR` holds one of the block's three fault
codes, and the block then never moves again. -/
def Obligations.FaultIsFinal : Prop :=
  ∀ s t : State, s.status = .busy → blockStep s = .next t → t.status = .error →
    (t.err = .truncatedStream ∨ t.err = .invalidOffset ∨ t.err = .indexOutOfRange) ∧ ∀ k, runBlock k t = t

/-- 60_exceptions.md section 3 (R138): only START and power-on reset leave `ERROR`. -/
def Obligations.OnlyStartOrPowerOnLeavesError : Prop :=
  ∀ s t : State, s.status = .error → step s = .next t → t.status ≠ .error →
    ∃ ms, (s.hostMoves = .powerOn :: ms ∧ t.status = .idle) ∨
      (∃ v, s.hostMoves = .writeReg 0 v :: ms ∧ v % 2 = 1 ∧ t = start { s with hostMoves := ms })

/-- 20_memory.md (R43) and 44_host_commands.md (R122): while a decode runs, no step but power-on reset changes the
payload, `PLEN` or `TLEN`. -/
def Obligations.InputsAreConstantDuringDecode : Prop :=
  ∀ s t : State, s.status = .busy → (∀ ms, s.hostMoves ≠ .powerOn :: ms) → step s = .next t →
    t.payload = s.payload ∧ t.plen = s.plen ∧ t.tlen = s.tlen

/-- 10_state.md (R11, R13, R19): in a turn of the block the cursor and the output length never decrease, and no byte
once appended changes. -/
def Obligations.CursorAndOutputOnlyGrow : Prop :=
  ∀ s t : State, blockStep s = .next t →
    s.cur ≤ t.cur ∧ s.olen ≤ t.olen ∧ ∀ a, a < s.olen → memRead t.out a = memRead s.out a

/-- R86: once `OLEN > TLEN` the decode can no longer succeed and must end in a fault. -/
def Obligations.OvershootEndsInFault : Prop :=
  ∀ s : State, s.status = .busy → s.tlen.toNat < s.olen →
    (∀ k, (runBlock k s).status ≠ .done) ∧ ∃ k, (runBlock k s).status = .error

/-- R87: every decode ends, after at most `(8 * PLEN) div 6` steps that complete a token, each of at least 6 bits, and
one last step. -/
def Obligations.EveryDecodeEnds : Prop :=
  ∀ s : State, ∃ k, k ≤ 8 * s.plen.toNat / 6 ∧
    (∀ j, j ≤ k → (runBlock j (start s)).status = .busy ∧ 6 * j ≤ (runBlock j (start s)).cur) ∧
    ((runBlock (k + 1) (start s)).status = .done ∨ (runBlock (k + 1) (start s)).status = .error)

/-- R5: a decode is a function of the payload bytes and the target length; nothing else in the state before START
influences it. -/
def Obligations.DecodeIsFunctionOfInputs : Prop :=
  ∀ s t : State, sameInputs s t → ∀ k, decodeView (runBlock k (start s)) = decodeView (runBlock k (start t))

/-- R44: payload bits that a successful decode does not reach, and payload bytes beyond them, do not affect it. -/
def Obligations.UnreachedBitsDoNotMatter : Prop :=
  ∀ (s t : State) (k : Nat), (runBlock k (start s)).status = .done → t.tlen = s.tlen →
    (∀ c, c < (runBlock k (start s)).cur → payloadBit t c = payloadBit s c) →
    (runBlock k (start s)).cur ≤ 8 * t.plen.toNat →
    decodeView (runBlock k (start t)) = decodeView (runBlock k (start s))

/-- 41_sequencer.md (R80, R88): a decode that succeeds has exactly `TLEN` bytes, each of which the block has written. -/
def Obligations.DoneDeliversExactlyTheTarget : Prop :=
  ∀ (s : State) (k : Nat), (runBlock k (start s)).status = .done →
    (runBlock k (start s)).olen = s.tlen.toNat ∧
    ∀ a, (memRead (runBlock k (start s)).out a).isSome = true ↔ a < s.tlen.toNat

/-! ## The host's framing duties -/

/-- 70_reset_and_hazards.md section 2 (R153, R154): from a block with the right magic, the two big-endian lengths and
the payload `[8, total_length)`; bytes beyond the total length are not given to the block. -/
def Obligations.FramingReadsLengthsAndSlice : Prop :=
  ∀ (d1 d0 t1 t0 : Byte) (payload extra : List Byte),
    t1.toNat * 256 + t0.toNat = 8 + payload.length →
    frameCodeBlock (0x00 :: 0x70 :: 0x78 :: 0x61 :: d1 :: d0 :: t1 :: t0 :: (payload ++ extra)) =
      .load (d1.toNat * 256 + d0.toNat) payload

/-- 70_reset_and_hazards.md section 2 (R152): without the magic the host reports `UnsupportedFormat`, code 1, and does
not start the block. That this covers the empty code block of a too short image is the model's choice (log 18). -/
def Obligations.WrongMagicIsUnsupportedFormat : Prop :=
  ∀ code : List Byte, code.take 4 ≠ [0x00, 0x70, 0x78, 0x61] → frameCodeBlock code = .fail 1

/-- 70_reset_and_hazards.md section 2 (R155): a pixel's byte is `64a + 16r + 4g + b` of the channels' low two bits. -/
def Obligations.PixelPacksLowBits : Prop :=
  ∀ p : Pixel, (pixelByte p).toNat =
    64 * (p.alpha.toNat % 4) + 16 * (p.red.toNat % 4) + 4 * (p.green.toNat % 4) + p.blue.toNat % 4
end

