-- ==== Sys2Proof/Laws/Memory.lean ====
section
/-! SUPPORT. The laws of the byte memories and of the move-to-front table. -/

namespace Sys2Proof.Machine

/-! ## Read after write -/

@[simp] theorem memRead_nil (a : Nat) : memRead [] a = none := rfl

/-- A byte written reads back. -/
@[simp] theorem memRead_memWrite_same (m : Memory) (a : Nat) (b : Byte) : memRead (memWrite m a b) a = some b := by
  induction m with
  | nil => simp [memWrite, memRead]
  | cons c m ih =>
    simp only [memWrite]
    split
    · simp [memRead]
    · split
      · simp [memRead]
      · simp [memRead, *]

/-- A write leaves every other address alone. -/
theorem memRead_memWrite_other {a p : Nat} (h : p ≠ a) (m : Memory) (b : Byte) :
    memRead (memWrite m a b) p = memRead m p := by
  induction m with
  | nil => simp [memWrite, memRead, h]
  | cons c m ih =>
    simp only [memWrite]
    split
    · simp [memRead, h]
    · split
      · rename_i h2; subst h2; simp [memRead, h]
      · simp [memRead, ih]

/-- Both cases of a read after a write. -/
theorem memRead_memWrite (m : Memory) (a p : Nat) (b : Byte) :
    memRead (memWrite m a b) p = if p = a then some b else memRead m p := by
  split
  · subst p; simp
  · exact memRead_memWrite_other ‹_› m b

/-! ## The canonical form -/

theorem cellsRiseFrom_mono {a a' : Nat} (h : a' ≤ a) : ∀ {m : Memory}, cellsRiseFrom a m = true → cellsRiseFrom a' m = true
  | [], _ => rfl
  | (_, _) :: _, hm => by
    simp only [cellsRiseFrom, Bool.and_eq_true, decide_eq_true_eq] at hm ⊢
    exact ⟨by omega, hm.2⟩

/-- A write above `a` keeps the cells above `a` rising. -/
theorem cellsRiseFrom_memWrite {a k : Nat} {b : Byte} (h : a < k) :
    ∀ {m : Memory}, cellsRiseFrom a m = true → cellsRiseFrom a (memWrite m k b) = true
  | [], _ => by simp [memWrite, cellsRiseFrom, h]
  | (a', b') :: m, hm => by
    simp only [cellsRiseFrom, Bool.and_eq_true, decide_eq_true_eq] at hm
    simp only [memWrite]
    split
    · simp [cellsRiseFrom, *]
    · split
      · rename_i h2; subst h2; simp [cellsRiseFrom, h, hm.2]
      · have := cellsRiseFrom_memWrite (a := a') (b := b) (by omega : a' < k) hm.2
        simp [cellsRiseFrom, hm.1, this]

/-- A write keeps the canonical form. -/
theorem memWrite_wf {m : Memory} (h : Memory.wf m = true) (a : Nat) (b : Byte) : Memory.wf (memWrite m a b) = true := by
  match m, h with
  | [], _ => rfl
  | (a', b') :: m, h =>
    simp only [Memory.wf] at h
    simp only [memWrite]
    split
    · simp [Memory.wf, cellsRiseFrom, *]
    · split
      · rename_i h2; subst h2; simpa [Memory.wf] using h
      · exact cellsRiseFrom_memWrite (by omega) h

/-- Loading bytes keeps the canonical form. -/
theorem storeBytes_wf (bs : List Byte) : ∀ {m : Memory} (a : Nat), Memory.wf m = true → Memory.wf (storeBytes a bs m) = true := by
  induction bs with
  | nil => intro m a h; exact h
  | cons b bs ih => intro m a h; exact ih _ (memWrite_wf h a b)

/-- Loading bytes from `a` on leaves every address below `a` alone. -/
theorem memRead_storeBytes_below (bs : List Byte) :
    ∀ (m : Memory) {a p : Nat}, p < a → memRead (storeBytes a bs m) p = memRead m p := by
  induction bs with
  | nil => intro m a p _; rfl
  | cons b bs ih =>
    intro m a p h
    rw [storeBytes, ih _ (by omega), memRead_memWrite_other (by omega)]

/-- Loaded bytes read back. -/
theorem memRead_storeBytes (bs : List Byte) :
    ∀ (m : Memory) (a : Nat) {j : Nat}, j < bs.length → memRead (storeBytes a bs m) (a + j) = bs[j]? := by
  induction bs with
  | nil => intro m a j h; simp at h
  | cons b bs ih =>
    intro m a j h
    cases j with
    | zero => rw [storeBytes, memRead_storeBytes_below _ _ (by omega)]; simp
    | succ j =>
      have := ih (memWrite m a b) (a + 1) (j := j) (by simpa using h)
      rw [storeBytes, ← Nat.add_assoc, Nat.add_right_comm]; simpa using this

/-- Both memories of the reset state are in canonical form. -/
theorem reset_memories_wf : Memory.wf State.reset.payload = true ∧ Memory.wf State.reset.out = true := ⟨rfl, rfl⟩

/-! ## The table -/

@[ext] theorem Table.ext_entries {t u : Table} (h : t.entries = u.entries) : t = u := by
  cases t; cases u; simpa using h

@[simp] theorem moveToFront_entries (t : Table) (i : Fin 256) :
    (moveToFront t i).entries = tableAt t i :: t.entries.eraseIdx i := rfl

@[simp] theorem identityTable_entries : identityTable.entries = (List.range 256).map (BitVec.ofNat 8) := by
  simp only [identityTable]

/-- The identity table is a permutation (R16, R17). -/
theorem identityTable_isPermutation : Table.isPermutation identityTable := by
  rw [Table.isPermutation, identityTable_entries]
  refine List.Nodup.map_on ?_ List.nodup_range
  intro a ha b hb h
  rw [List.mem_range] at ha hb
  have := congrArg BitVec.toNat h
  rw [BitVec.toNat_ofNat, BitVec.toNat_ofNat] at this
  omega

@[simp] theorem mtfTake_fst (t : Table) (i : Fin 256) : (mtfTake t i).1 = tableAt t i := rfl

@[simp] theorem mtfTake_snd (t : Table) (i : Fin 256) : (mtfTake t i).2 = moveToFront t i := rfl

/-- Reading an entry is reading the list of entries. -/
theorem tableAt_eq (t : Table) (i : Fin 256) : t.entries[i.val]? = some (tableAt t i) :=
  List.getElem?_eq_getElem (by rw [t.size]; exact i.isLt)

end Sys2Proof.Machine
end

