-- ==== Sys2Proof/Laws/State.lean ====
section
/-! SUPPORT. One lemma per field for each operation that updates the state, each true by unfolding, so that no later
proof unfolds a record update. -/

namespace Sys2Proof.Machine

/-! ## advance -/

@[simp] theorem advance_payload (n : Nat) (s : State) : (advance n s).payload = s.payload := rfl

@[simp] theorem advance_plen (n : Nat) (s : State) : (advance n s).plen = s.plen := rfl

@[simp] theorem advance_tlen (n : Nat) (s : State) : (advance n s).tlen = s.tlen := rfl

@[simp] theorem advance_cur (n : Nat) (s : State) : (advance n s).cur = s.cur + n := rfl

@[simp] theorem advance_olen (n : Nat) (s : State) : (advance n s).olen = s.olen := rfl

@[simp] theorem advance_out (n : Nat) (s : State) : (advance n s).out = s.out := rfl

@[simp] theorem advance_mtf (n : Nat) (s : State) : (advance n s).mtf = s.mtf := rfl

@[simp] theorem advance_status (n : Nat) (s : State) : (advance n s).status = s.status := rfl

@[simp] theorem advance_err (n : Nat) (s : State) : (advance n s).err = s.err := rfl

@[simp] theorem advance_hostMoves (n : Nat) (s : State) : (advance n s).hostMoves = s.hostMoves := rfl

@[simp] theorem advance_readData (n : Nat) (s : State) : (advance n s).readData = s.readData := rfl

@[simp] theorem advance_powerOns (n : Nat) (s : State) : (advance n s).powerOns = s.powerOns := rfl

@[simp] theorem advance_draws (n : Nat) (s : State) : (advance n s).draws = s.draws := rfl

/-! ## exhaust -/

@[simp] theorem exhaust_payload (s : State) : (exhaust s).payload = s.payload := rfl

@[simp] theorem exhaust_plen (s : State) : (exhaust s).plen = s.plen := rfl

@[simp] theorem exhaust_tlen (s : State) : (exhaust s).tlen = s.tlen := rfl

@[simp] theorem exhaust_cur (s : State) : (exhaust s).cur = max s.cur (payloadBits s) := rfl

@[simp] theorem exhaust_olen (s : State) : (exhaust s).olen = s.olen := rfl

@[simp] theorem exhaust_out (s : State) : (exhaust s).out = s.out := rfl

@[simp] theorem exhaust_mtf (s : State) : (exhaust s).mtf = s.mtf := rfl

@[simp] theorem exhaust_status (s : State) : (exhaust s).status = s.status := rfl

@[simp] theorem exhaust_err (s : State) : (exhaust s).err = s.err := rfl

@[simp] theorem exhaust_hostMoves (s : State) : (exhaust s).hostMoves = s.hostMoves := rfl

@[simp] theorem exhaust_readData (s : State) : (exhaust s).readData = s.readData := rfl

@[simp] theorem exhaust_powerOns (s : State) : (exhaust s).powerOns = s.powerOns := rfl

@[simp] theorem exhaust_draws (s : State) : (exhaust s).draws = s.draws := rfl

/-! ## append -/

@[simp] theorem append_payload (b : Byte) (s : State) : (append b s).payload = s.payload := rfl

@[simp] theorem append_plen (b : Byte) (s : State) : (append b s).plen = s.plen := rfl

@[simp] theorem append_tlen (b : Byte) (s : State) : (append b s).tlen = s.tlen := rfl

@[simp] theorem append_cur (b : Byte) (s : State) : (append b s).cur = s.cur := rfl

@[simp] theorem append_olen (b : Byte) (s : State) : (append b s).olen = s.olen + 1 := rfl

@[simp] theorem append_out (b : Byte) (s : State) : (append b s).out = memWrite s.out s.olen b := rfl

@[simp] theorem append_mtf (b : Byte) (s : State) : (append b s).mtf = s.mtf := rfl

@[simp] theorem append_status (b : Byte) (s : State) : (append b s).status = s.status := rfl

@[simp] theorem append_err (b : Byte) (s : State) : (append b s).err = s.err := rfl

@[simp] theorem append_hostMoves (b : Byte) (s : State) : (append b s).hostMoves = s.hostMoves := rfl

@[simp] theorem append_readData (b : Byte) (s : State) : (append b s).readData = s.readData := rfl

@[simp] theorem append_powerOns (b : Byte) (s : State) : (append b s).powerOns = s.powerOns := rfl

@[simp] theorem append_draws (b : Byte) (s : State) : (append b s).draws = s.draws := rfl

/-! ## litTake -/

@[simp] theorem litTake_payload (i : Fin 256) (s : State) : (litTake i s).payload = s.payload := rfl

@[simp] theorem litTake_plen (i : Fin 256) (s : State) : (litTake i s).plen = s.plen := rfl

@[simp] theorem litTake_tlen (i : Fin 256) (s : State) : (litTake i s).tlen = s.tlen := rfl

@[simp] theorem litTake_cur (i : Fin 256) (s : State) : (litTake i s).cur = s.cur := rfl

@[simp] theorem litTake_olen (i : Fin 256) (s : State) : (litTake i s).olen = s.olen + 1 := rfl

@[simp] theorem litTake_out (i : Fin 256) (s : State) : (litTake i s).out = memWrite s.out s.olen (tableAt s.mtf i) := rfl

@[simp] theorem litTake_mtf (i : Fin 256) (s : State) : (litTake i s).mtf = moveToFront s.mtf i := rfl

@[simp] theorem litTake_status (i : Fin 256) (s : State) : (litTake i s).status = s.status := rfl

@[simp] theorem litTake_err (i : Fin 256) (s : State) : (litTake i s).err = s.err := rfl

@[simp] theorem litTake_hostMoves (i : Fin 256) (s : State) : (litTake i s).hostMoves = s.hostMoves := rfl

@[simp] theorem litTake_readData (i : Fin 256) (s : State) : (litTake i s).readData = s.readData := rfl

@[simp] theorem litTake_powerOns (i : Fin 256) (s : State) : (litTake i s).powerOns = s.powerOns := rfl

@[simp] theorem litTake_draws (i : Fin 256) (s : State) : (litTake i s).draws = s.draws := rfl

/-! ## start -/

@[simp] theorem start_payload (s : State) : (start s).payload = s.payload := rfl

@[simp] theorem start_plen (s : State) : (start s).plen = s.plen := rfl

@[simp] theorem start_tlen (s : State) : (start s).tlen = s.tlen := rfl

@[simp] theorem start_cur (s : State) : (start s).cur = 0 := rfl

@[simp] theorem start_olen (s : State) : (start s).olen = 0 := rfl

@[simp] theorem start_out (s : State) : (start s).out = [] := rfl

@[simp] theorem start_mtf (s : State) : (start s).mtf = identityTable := rfl

@[simp] theorem start_status (s : State) : (start s).status = .busy := rfl

@[simp] theorem start_err (s : State) : (start s).err = .none := rfl

@[simp] theorem start_hostMoves (s : State) : (start s).hostMoves = s.hostMoves := rfl

@[simp] theorem start_readData (s : State) : (start s).readData = s.readData := rfl

@[simp] theorem start_powerOns (s : State) : (start s).powerOns = s.powerOns := rfl

@[simp] theorem start_draws (s : State) : (start s).draws = s.draws := rfl

/-! ## powerOnReset -/

@[simp] theorem powerOnReset_payload (s : State) : (powerOnReset s).payload = [] := rfl

@[simp] theorem powerOnReset_plen (s : State) : (powerOnReset s).plen = 0 := rfl

@[simp] theorem powerOnReset_tlen (s : State) : (powerOnReset s).tlen = 0 := rfl

@[simp] theorem powerOnReset_cur (s : State) : (powerOnReset s).cur = 0 := rfl

@[simp] theorem powerOnReset_olen (s : State) : (powerOnReset s).olen = 0 := rfl

@[simp] theorem powerOnReset_out (s : State) : (powerOnReset s).out = [] := rfl

@[simp] theorem powerOnReset_mtf (s : State) : (powerOnReset s).mtf = identityTable := rfl

@[simp] theorem powerOnReset_status (s : State) : (powerOnReset s).status = .idle := rfl

@[simp] theorem powerOnReset_err (s : State) : (powerOnReset s).err = .none := rfl

@[simp] theorem powerOnReset_hostMoves (s : State) : (powerOnReset s).hostMoves = s.hostMoves := rfl

@[simp] theorem powerOnReset_readData (s : State) : (powerOnReset s).readData = s.readData := rfl

@[simp] theorem powerOnReset_powerOns (s : State) : (powerOnReset s).powerOns = s.powerOns + 1 := rfl

@[simp] theorem powerOnReset_draws (s : State) : (powerOnReset s).draws = s.draws := rfl

/-! ## The derived reads -/

@[simp] theorem payloadBits_advance (n : Nat) (s : State) : payloadBits (advance n s) = payloadBits s := rfl

@[simp] theorem payloadBits_exhaust (s : State) : payloadBits (exhaust s) = payloadBits s := rfl

@[simp] theorem payloadBits_append (b : Byte) (s : State) : payloadBits (append b s) = payloadBits s := rfl

@[simp] theorem payloadByte_advance (n : Nat) (s : State) (a : Nat) : payloadByte (advance n s) a = payloadByte s a := rfl

@[simp] theorem payloadByte_append (b : Byte) (s : State) (a : Nat) : payloadByte (append b s) a = payloadByte s a := rfl

@[simp] theorem outByte_advance (n : Nat) (s : State) (a : Nat) : outByte (advance n s) a = outByte s a := rfl

@[simp] theorem outByte_exhaust (s : State) (a : Nat) : outByte (exhaust s) a = outByte s a := rfl

end Sys2Proof.Machine
end

