-- ==== Sys2Proof/Laws/Ops.lean ====
section
/-! SUPPORT. For each shared operation, one lemma that says what it can do; proofs cite it instead of unfolding the
operation. -/

namespace Sys2Proof

open Machine

/-! ## Frames compose -/

theorem KeepsHostSide.refl (s : State) : KeepsHostSide s s := ⟨rfl, rfl, rfl, rfl, rfl, rfl, rfl⟩

theorem KeepsHostSide.trans {s t u : State} (h : KeepsHostSide s t) (k : KeepsHostSide t u) : KeepsHostSide s u :=
  ⟨k.payload.trans h.payload, k.plen.trans h.plen, k.tlen.trans h.tlen, k.hostMoves.trans h.hostMoves,
    k.readData.trans h.readData, k.powerOns.trans h.powerOns, k.draws.trans h.draws⟩

theorem KeepsStatus.refl (s : State) : KeepsStatus s s := ⟨rfl, rfl⟩

theorem KeepsStatus.trans {s t u : State} (h : KeepsStatus s t) (k : KeepsStatus t u) : KeepsStatus s u :=
  ⟨k.status.trans h.status, k.err.trans h.err⟩

end Sys2Proof

namespace Sys2Proof.Machine

theorem advance_keepsHostSide (n : Nat) (s : State) : KeepsHostSide s (advance n s) := ⟨rfl, rfl, rfl, rfl, rfl, rfl, rfl⟩

theorem exhaust_keepsHostSide (s : State) : KeepsHostSide s (exhaust s) := ⟨rfl, rfl, rfl, rfl, rfl, rfl, rfl⟩

theorem append_keepsHostSide (b : Byte) (s : State) : KeepsHostSide s (append b s) := ⟨rfl, rfl, rfl, rfl, rfl, rfl, rfl⟩

theorem append_keepsStatus (b : Byte) (s : State) : KeepsStatus s (append b s) := ⟨rfl, rfl⟩

theorem litTake_keepsHostSide (i : Fin 256) (s : State) : KeepsHostSide s (litTake i s) :=
  ⟨rfl, rfl, rfl, rfl, rfl, rfl, rfl⟩

theorem start_keepsHostSide (s : State) : KeepsHostSide s (start s) := ⟨rfl, rfl, rfl, rfl, rfl, rfl, rfl⟩

/-! ## Appending -/

/-- What `append` does to a read of `OUT`: the byte at `OLEN`, every other position as before (R37). -/
theorem outByte_append (b : Byte) (s : State) (p : Nat) :
    outByte (append b s) p = if p = s.olen then b else outByte s p := by
  simp only [outByte, append_out, memRead_memWrite, append_powerOns]
  split <;> rfl

/-- Everything `appendAll` does: the bytes stand in order from `OLEN` on, and only `OUT` and `OLEN` change. -/
theorem appendAll_spec (data : List Byte) : ∀ s : State,
    (appendAll data s).olen = s.olen + data.length ∧
    (∀ j, j < data.length → memRead (appendAll data s).out (s.olen + j) = data[j]?) ∧
    outSameOutside s.olen data.length s (appendAll data s) ∧
    (appendAll data s).cur = s.cur ∧ (appendAll data s).mtf = s.mtf ∧
    KeepsStatus s (appendAll data s) ∧ KeepsHostSide s (appendAll data s) := by
  induction data with
  | nil => intro s; exact ⟨rfl, by simp, fun _ _ => rfl, rfl, rfl, .refl s, .refl s⟩
  | cons b bs ih =>
    intro s
    obtain ⟨ho, hr, hs, hc, hm, hk, hh⟩ := ih (append b s)
    refine ⟨by simp only [appendAll, ho, append_olen, List.length_cons]; omega, ?_, ?_, hc, hm,
      (append_keepsStatus _ s).trans hk, (append_keepsHostSide b s).trans hh⟩
    · intro j hj
      cases j with
      | zero =>
        rw [appendAll, hs _ (by simp), append_out]; simp
      | succ j =>
        have := hr j (by simpa using hj)
        rw [append_olen] at this
        rw [appendAll, show s.olen + (j + 1) = s.olen + 1 + j by omega, this]; rfl
    · intro p hp
      simp only [List.length_cons] at hp
      rw [appendAll, hs p (by simp only [append_olen]; omega), append_out, memRead_memWrite_other (by omega)]

@[simp] theorem appendAll_olen (data : List Byte) (s : State) : (appendAll data s).olen = s.olen + data.length :=
  (appendAll_spec data s).1

@[simp] theorem appendAll_cur (data : List Byte) (s : State) : (appendAll data s).cur = s.cur :=
  (appendAll_spec data s).2.2.2.1

@[simp] theorem appendAll_mtf (data : List Byte) (s : State) : (appendAll data s).mtf = s.mtf :=
  (appendAll_spec data s).2.2.2.2.1

theorem appendAll_keepsStatus (data : List Byte) (s : State) : KeepsStatus s (appendAll data s) :=
  (appendAll_spec data s).2.2.2.2.2.1

theorem appendAll_keepsHostSide (data : List Byte) (s : State) : KeepsHostSide s (appendAll data s) :=
  (appendAll_spec data s).2.2.2.2.2.2

/-- Everything the copy loop changes: it appends `n` bytes, and only `OUT` and `OLEN` change. Which bytes they are is
the claim `CopyAppendsRepeatedOutput`. -/
theorem copyBytes_frame (n offset : Nat) : ∀ s : State,
    (copyBytes n offset s).olen = s.olen + n ∧ outSameOutside s.olen n s (copyBytes n offset s) ∧
    (copyBytes n offset s).cur = s.cur ∧ (copyBytes n offset s).mtf = s.mtf ∧
    KeepsStatus s (copyBytes n offset s) ∧ KeepsHostSide s (copyBytes n offset s) := by
  induction n with
  | zero => intro s; exact ⟨rfl, fun _ _ => rfl, rfl, rfl, .refl s, .refl s⟩
  | succ n ih =>
    intro s
    obtain ⟨ho, hs, hc, hm, hk, hh⟩ := ih (append (outByte s (s.olen - offset)) s)
    refine ⟨by simp only [copyBytes, ho, append_olen]; omega, ?_, hc, hm, (append_keepsStatus _ s).trans hk,
      (append_keepsHostSide _ s).trans hh⟩
    intro p hp
    rw [copyBytes, hs p (by simp only [append_olen]; omega), append_out, memRead_memWrite_other (by omega)]

@[simp] theorem copyBytes_olen (n offset : Nat) (s : State) : (copyBytes n offset s).olen = s.olen + n :=
  (copyBytes_frame n offset s).1

@[simp] theorem copyBytes_cur (n offset : Nat) (s : State) : (copyBytes n offset s).cur = s.cur :=
  (copyBytes_frame n offset s).2.2.1

@[simp] theorem copyBytes_mtf (n offset : Nat) (s : State) : (copyBytes n offset s).mtf = s.mtf :=
  (copyBytes_frame n offset s).2.2.2.1

/-! ## The canonical form of `OUT` -/

theorem append_out_wf {s : State} (h : Memory.wf s.out = true) (b : Byte) : Memory.wf (append b s).out = true :=
  memWrite_wf h _ _

theorem appendAll_out_wf (data : List Byte) : ∀ {s : State}, Memory.wf s.out = true → Memory.wf (appendAll data s).out = true := by
  induction data with
  | nil => intro s h; exact h
  | cons b bs ih => intro s h; exact ih (append_out_wf h b)

theorem copyBytes_out_wf (n offset : Nat) : ∀ {s : State}, Memory.wf s.out = true →
    Memory.wf (copyBytes n offset s).out = true := by
  induction n with
  | zero => intro s h; exact h
  | succ n ih => intro s h; exact ih (append_out_wf h _)

/-! ## What each shared step can answer -/

/-- Taking a fault answers a next state in which only `ERR` and `STATUS` have changed. -/
theorem raise_eq (e : Err) (s : State) : raise e s = .next { s with err := e, status := .error } := rfl

/-- `litToken` ends in one of three ways. -/
theorem litToken_cases (u l : Nat) (s : State) :
    (bitsRemain (litBits u) s = true ∧ ∃ h : litIndex u l < 256,
      litToken u l s = .next (litTake ⟨litIndex u l, h⟩ (advance (litBits u) s))) ∨
    (bitsRemain (litBits u) s = true ∧ 256 ≤ litIndex u l ∧
      litToken u l s = raise .indexOutOfRange (advance (litBits u) s)) ∨
    (bitsRemain (litBits u) s = false ∧ litToken u l s = raise .truncatedStream (exhaust s)) := by
  unfold litToken
  by_cases hb : bitsRemain (litBits u) s = true
  · by_cases hi : litIndex u l < Config.tableSize
    · exact .inl ⟨hb, hi, by rw [if_pos hb, dif_pos hi]⟩
    · exact .inr (.inl ⟨hb, by simpa [Config.tableSize] using hi, by rw [if_pos hb, dif_neg hi]⟩)
  · exact .inr (.inr ⟨by simpa using hb, by rw [if_neg hb]⟩)

/-- `copyToken` ends in one of three ways. -/
theorem copyToken_cases (header offset len : Nat) (s : State) :
    (bitsRemain (copyBits header len) s = true ∧ offset ≤ s.olen ∧
      copyToken header offset len s = .next (copyBytes len offset (advance (copyBits header len) s))) ∨
    (bitsRemain (copyBits header len) s = true ∧ s.olen < offset ∧
      copyToken header offset len s = raise .invalidOffset (advance (copyBits header len) s)) ∨
    (bitsRemain (copyBits header len) s = false ∧ copyToken header offset len s = raise .truncatedStream (exhaust s)) := by
  unfold copyToken
  by_cases hb : bitsRemain (copyBits header len) s = true
  · by_cases ho : offset ≤ s.olen
    · exact .inl ⟨hb, ho, by rw [if_pos hb, if_pos ho]⟩
    · exact .inr (.inl ⟨hb, by omega, by rw [if_pos hb, if_neg ho]⟩)
  · exact .inr (.inr ⟨by simpa using hb, by rw [if_neg hb]⟩)

/-- `execRaw` ends in one of two ways. -/
theorem execRaw_cases (data : List Byte) (s : State) :
    (bitsRemain (rawBits data.length) s = true ∧
      execRaw data s = .next (appendAll data (advance (rawBits data.length) s))) ∨
    (bitsRemain (rawBits data.length) s = false ∧
      execRaw data s = raise .truncatedStream (appendAll (data.take (rawValuesLeft s)) (exhaust s))) := by
  unfold execRaw
  by_cases hb : bitsRemain (rawBits data.length) s = true
  · exact .inl ⟨hb, by rw [if_pos hb]⟩
  · exact .inr ⟨by simpa using hb, by rw [if_neg hb]⟩

/-- The block's turn is one of three. -/
theorem blockStep_cases (s : State) :
    (s.status ≠ .busy ∧ blockStep s = .next s) ∨
    (s.status = .busy ∧ s.olen = s.tlen.toNat ∧ blockStep s = .next { s with status := .done }) ∨
    (s.status = .busy ∧ s.olen ≠ s.tlen.toNat ∧ blockStep s = carryOut (fetch s) s) := by
  unfold blockStep
  by_cases hb : s.status = .busy
  · by_cases hl : s.olen = s.tlen.toNat
    · exact .inr (.inl ⟨hb, hl, by rw [if_pos hb, if_pos hl]⟩)
    · exact .inr (.inr ⟨hb, hl, by rw [if_pos hb, if_neg hl]⟩)
  · exact .inl ⟨hb, by rw [if_neg hb]⟩

/-- A step is the block's turn, or the host's first move with the others still to come. -/
theorem step_cases (s : State) :
    (s.hostMoves = [] ∧ step s = blockStep s) ∨
    (∃ m ms, s.hostMoves = m :: ms ∧ step s = hostStep m { s with hostMoves := ms }) := by
  unfold step turn
  cases h : s.hostMoves with
  | nil => exact .inl ⟨rfl, rfl⟩
  | cons m ms => exact .inr ⟨m, ms, rfl, rfl⟩

/-- What a host's register write can answer. -/
theorem writeRegister_cases (n v : Nat) (s : State) :
    (∃ t, writeRegister n v s = .next t ∧ (t = s ∨ (s.status ≠ .busy ∧
      (t = start s ∨ t = { s with plen := BitVec.ofNat 16 v } ∨ t = { s with tlen := BitVec.ofNat 16 v })))) ∨
    (6 < n ∧ writeRegister n v s = .fault (.noSuchRegister n)) := by
  match n with
  | 0 =>
    refine .inl ⟨_, rfl, ?_⟩
    split
    · rename_i h; exact .inr ⟨h.2, .inl rfl⟩
    · exact .inl rfl
  | 3 =>
    refine .inl ⟨_, rfl, ?_⟩
    split
    · exact .inl rfl
    · rename_i h; exact .inr ⟨h, .inr (.inl rfl)⟩
  | 4 =>
    refine .inl ⟨_, rfl, ?_⟩
    split
    · exact .inl rfl
    · rename_i h; exact .inr ⟨h, .inr (.inr rfl)⟩
  | 1 | 2 | 5 | 6 => exact .inl ⟨_, rfl, .inl rfl⟩
  | n + 7 => exact .inr ⟨by omega, rfl⟩

/-- What a host's register read can answer: the value in `readData` and nothing else, or the fault of a number that
R24 does not give. -/
theorem readRegister_cases (n : Nat) (s : State) :
    (∃ v, registerValue n s = some v ∧ readRegister n s = .next { s with readData := v }) ∨
    (registerValue n s = none ∧ readRegister n s = .fault (.noSuchRegister n)) := by
  unfold readRegister
  cases h : registerValue n s with
  | none => exact .inr ⟨rfl, rfl⟩
  | some v => exact .inl ⟨v, rfl, rfl⟩

/-- What a host's payload write can answer. -/
theorem writePayloadWindow_cases (a : Nat) (b : Byte) (s : State) :
    (65535 ≤ a ∧ writePayloadWindow a b s = .fault (.noSuchPayloadAddress a)) ∨
    (a < 65535 ∧ s.status = .busy ∧ writePayloadWindow a b s = .refused (.payloadWriteWhileBusy a)) ∨
    (a < 65535 ∧ s.status ≠ .busy ∧ writePayloadWindow a b s = .next { s with payload := memWrite s.payload a b }) := by
  unfold writePayloadWindow
  by_cases ha : Config.payloadCapacity ≤ a
  · exact .inl ⟨ha, by rw [if_pos ha]⟩
  · by_cases hb : s.status = .busy
    · exact .inr (.inl ⟨by simpa [Config.payloadCapacity] using ha, hb, by rw [if_neg ha, if_pos hb]⟩)
    · exact .inr (.inr ⟨by simpa [Config.payloadCapacity] using ha, hb, by rw [if_neg ha, if_neg hb]⟩)

/-- A read of the result window changes only what the read returned and the counter of the free values. -/
theorem readResultWindow_frame (a : Nat) (s : State) :
    ∃ v d, readResultWindow a s = { s with readData := v, draws := d } := by
  unfold readResultWindow
  split
  · exact ⟨_, s.draws, rfl⟩
  · exact ⟨_, _, rfl⟩

/-! ## Procedures -/

@[simp] theorem andThen_ok {α β : Type} (a : α) (s : State) (f : α → State → Run β) : andThen (.ok a s) f = f a s := rfl

@[simp] theorem andThen_raised {α β : Type} (e : Err) (s : State) (f : α → State → Run β) :
    andThen (.raised e s) f = .raised e s := rfl

end Sys2Proof.Machine
end

