-- ==== Sys2Proof/Laws/PerInstr.lean ====
section
/-! SUPPORT. Statements made per token: the encoding of a token has the length that 30_encoding.md section 2 gives. -/

namespace Sys2Proof

/-! ## When a token is well formed -/

@[simp] theorem copyLengthOk_iff (len : Nat) : copyLengthOk len = true ↔ 3 ≤ len := by
  unfold copyLengthOk Config.lenBase; exact decide_eq_true_iff

theorem wellFormed_litIll_iff (u l : Nat) : wellFormed (.litIll u l) = true ↔ 5 ≤ u ∧ l < 2 ^ (4 + u) := by
  rw [wellFormed, Bool.and_eq_true, decide_eq_true_iff, decide_eq_true_iff]; rfl

theorem wellFormed_cpy5_iff (o : BitVec 5) (len : Nat) : wellFormed (.cpy5 o len) = true ↔ 3 ≤ len :=
  copyLengthOk_iff len

theorem wellFormed_raw_iff (data : List Byte) : wellFormed (.raw data) = true ↔ ∀ b ∈ data, b ≠ 0 := by
  simp only [wellFormed, List.all_eq_true, bne_iff_ne]; rfl

theorem wellFormed_cpy10_iff (o : BitVec 10) (len : Nat) : wellFormed (.cpy10 o len) = true ↔ o ≠ 0 ∧ 3 ≤ len := by
  simp only [wellFormed, Bool.and_eq_true, bne_iff_ne, copyLengthOk_iff]; rfl

theorem wellFormed_cpy15_iff (o : BitVec 15) (len : Nat) : wellFormed (.cpy15 o len) = true ↔ 3 ≤ len :=
  copyLengthOk_iff len

/-! ## How many bits -/

@[simp] theorem length_fieldBits (n v : Nat) : (fieldBits n v).length = n := by
  induction n generalizing v with
  | zero => rfl
  | succ n ih => simp [fieldBits, ih]

@[simp] theorem length_bitsOfBytes (bytes : List Byte) : (bitsOfBytes bytes).length = 8 * bytes.length := by
  induction bytes with
  | nil => rfl
  | cons b bs ih =>
    have h : bitsOfBytes (b :: bs) = fieldBits 8 b.toNat ++ bitsOfBytes bs := rfl
    rw [h, List.length_append, ih, length_fieldBits, List.length_cons]; omega

theorem length_encodeLit (u l : Nat) : (encodeLit u l).length = litBits u := by
  simp [encodeLit, litBits, Config.litBaseWidth]; omega

theorem length_encodeLength (len : Nat) : (encodeLength len).length = 3 * groupCount len := by
  simp [encodeLength, groupCount]; omega

theorem length_encodeRawBody (data : List Byte) : (encodeRawBody data).length = 8 * data.length + 8 := by
  simp [encodeRawBody]

namespace Laws.EncodeLength

/-- The token's encoding has the stated number of bits. -/
def Statement (i : Instr) : Prop := (encode i).length = tokenBits i

theorem litU0 (l : BitVec 4) : Statement (.litU0 l) := length_encodeLit 0 l.toNat

theorem litU1 (l : BitVec 5) : Statement (.litU1 l) := length_encodeLit 1 l.toNat

theorem litU2 (l : BitVec 6) : Statement (.litU2 l) := length_encodeLit 2 l.toNat

theorem litU3 (l : BitVec 7) : Statement (.litU3 l) := length_encodeLit 3 l.toNat

theorem litU4 (l : BitVec 8) : Statement (.litU4 l) := length_encodeLit 4 l.toNat

theorem litIll (u l : Nat) : Statement (.litIll u l) := length_encodeLit u l

theorem cpy5 (o : BitVec 5) (len : Nat) : Statement (.cpy5 o len) := by
  simp [Statement, encode, tokenBits, copyBits, length_encodeLength]; omega

theorem raw (data : List Byte) : Statement (.raw data) := by
  simp [Statement, encode, tokenBits, rawBits, length_encodeRawBody]; omega

theorem cpy10 (o : BitVec 10) (len : Nat) : Statement (.cpy10 o len) := by
  simp [Statement, encode, tokenBits, copyBits, length_encodeLength]; omega

theorem cpy15 (o : BitVec 15) (len : Nat) : Statement (.cpy15 o len) := by
  simp [Statement, encode, tokenBits, copyBits, length_encodeLength]; omega

end Laws.EncodeLength

end Sys2Proof
end

