-- ==== Sys2Proof/Tests/Slice0.lean ====
section
/-! SUPPORT. The model's own tests, their expected results from 95_test_vectors.md and the worked examples of the
section files, and a witness for every statement that has hypotheses. -/

namespace Sys2Proof.Tests

open Machine

/-- A block about to decode the given payload, as START leaves it (R81), with `cur` bits read. -/
def ready (bytes : List Byte) (target cur : Nat) : State :=
  { start State.reset with
    payload := storeBytes 0 bytes [], plen := BitVec.ofNat 16 bytes.length, tlen := BitVec.ofNat 16 target, cur := cur }

/-- The same, with output already there. -/
def readyWith (out bytes : List Byte) (target cur : Nat) : State := appendAll out (ready bytes target cur)

/-- The same, with host moves to come. -/
def withMoves (ms : List HostMove) (s : State) : State := { s with hostMoves := ms }

/-- The answer is a next state with a property. -/
def answers (r : Result) (p : State → Bool) : Bool :=
  match r with
  | .next t => p t
  | _ => false

/-- What the test vectors list: `STATUS`, `ERR`, `CUR`, `OLEN`, the output and the front of the table. -/
def looks (t : State) (status : Status) (err : Err) (cur olen : Nat) (out front : List Byte) : Bool :=
  decide (t.status = status ∧ t.err = err ∧ t.cur = cur ∧ t.olen = olen ∧ t.out.map Prod.snd = out ∧
    t.mtf.entries.take front.length = front)

/-! ## WellFormed refuses each ill-formed term -/

theorem test_wf_refuses_ill_class_4 : wellFormed (.litIll 4 0) = false := by decide

theorem test_wf_refuses_ill_wide_field : wellFormed (.litIll 5 512) = false := by decide

theorem test_wf_refuses_short_cpy5 : wellFormed (.cpy5 0 2) = false := by decide

theorem test_wf_refuses_short_cpy10 : wellFormed (.cpy10 1 2) = false := by decide

theorem test_wf_refuses_cpy10_escape : wellFormed (.cpy10 0 3) = false := by decide

theorem test_wf_refuses_short_cpy15 : wellFormed (.cpy15 0 2) = false := by decide

theorem test_wf_refuses_raw_zero : wellFormed (.raw [1, 0]) = false := by decide

/-! ## Decoding: stream bits written out from 30_encoding.md section 2 -/

/-- V-L2: `1 0 1000`. -/
theorem test_decode_litU0 : decode [true, false, true, false, false, false] = .token (.litU0 1) [] := by decide

/-- V-L4 with `L = 8`: `1 1 0 00010`. -/
theorem test_decode_litU1 :
    decode [true, true, false, false, false, false, true, false] = .token (.litU1 8) [] := by decide

/-- R90's example: `1 11 0 101011`. -/
theorem test_decode_litU2 :
    decode [true, true, true, false, true, false, true, false, true, true] = .token (.litU2 53) [] := by decide

/-- P3: `1 111 0 1001000`. -/
theorem test_decode_litU3 :
    decode [true, true, true, true, false, true, false, false, true, false, false, false] = .token (.litU3 9) [] := by
  decide

/-- V-L11: `1 1111 0 11110000`. -/
theorem test_decode_litU4 :
    decode [true, true, true, true, true, false, true, true, true, true, false, false, false, false]
      = .token (.litU4 15) [] := by decide

/-- R97's example: `1 11111 0 000000000`. -/
theorem test_decode_litIll :
    decode (bitsOfBytes [0x3F, 0x00]) = .token (.litIll 5 0) [] := by decide

/-- V-C7, groups 7, 7, 6: `0 11 00000 111 111 011`, length 23. -/
theorem test_decode_cpy5 :
    decode [false, true, true, false, false, false, false, false, true, true, true, true, true, true, false, true, true]
      = .token (.cpy5 0 23) [] := by decide

/-- V-C14: `0 10 1000000000 100`. -/
theorem test_decode_cpy10 :
    decode ([false, true, false, true] ++ List.replicate 9 false ++ [true, false, false]) = .token (.cpy10 1 4) [] := by
  decide

/-- P3: `0 0 000000000000000 111 111 110`, length 20. -/
theorem test_decode_cpy15 :
    decode (List.replicate 17 false ++ List.replicate 8 true ++ [false]) = .token (.cpy15 0 20) [] := by decide

/-- V-R1, and the three pad bits after it. -/
theorem test_decode_raw :
    decode (bitsOfBytes [0x02, 0x00, 0x29, 0x0D, 0x00]) = .token (.raw [0x48, 0x69]) [false, false, false] := by decide

/-- V-R3: the terminator is missing; the two data bytes were read. -/
theorem test_decode_raw_cut : decode (bitsOfBytes [0x02, 0x00, 0x29, 0x0D]) = .truncated [0x48, 0x69] := by decide

/-- V-L17: ones to the end. -/
theorem test_decode_unary_cut : decode (bitsOfBytes [0xFF, 0xFF]) = .truncated [] := by decide

/-- R64's packing, on V-R6: `RAW 48 69; CPY5 2,4; LIT 33`. -/
theorem test_assemble :
    assemble [.raw [0x48, 0x69], copyOfOffset 2 4, litOfIndex 33] = [0x02, 0x00, 0x29, 0x0D, 0xC0, 0x21, 0x8B] := by decide

/-- The table's own numbering of the bits: 0x3F in 16 bits is `LIT.raw 5, 0` (V-L14). -/
theorem test_decodeTableWord : decodeTableWord 16 0x3F = some (.litIll 5 0) := by decide

/-- The next step after reset runs the placed instruction. -/
theorem test_withFetchWord :
    step (State.reset.withFetchWord 8 0x05) = exec (.litU0 1) (State.reset.withFetchWord 8 0x05) := by rfl

/-! ## The bit reader: V-B4, V-B7, V-B8, V-B10 -/

/-- The value of a read and the cursor after it. -/
def readValue (r : Run Nat) : Option Nat × Nat :=
  match r with
  | .ok v s => (some v, s.cur)
  | .raised _ s => (none, s.cur)

theorem test_readBits_straddles : readValue (readBits 7 (ready [0xA5, 0x3C, 0xF0] 1 4)) = (some 74, 11) := by decide

theorem test_readBit_ends : readValue (readBits 1 (ready [0xA5, 0x3C, 0xF0] 1 24)) = (none, 24) := by decide

theorem test_readBits_word :
    readValue (readBits 32 (ready [0x78, 0x56, 0x34, 0x12, 0xFF] 1 4)) = (some 0xF1234567, 36) := by decide

theorem test_readBits_short :
    readValue (readBits 5 (ready [0x78, 0x56, 0x34, 0x12, 0xFF] 1 36)) = (none, 40) := by decide

/-! ## One step of each token -/

/-- V-L3. -/
theorem test_step_litU0 :
    answers (step (ready [0x3D] 1 0)) (looks · .busy .none 6 1 [0x0F] [0x0F, 0x00, 0x01]) = true := by decide +kernel

/-- V-L5. -/
theorem test_step_litU1 :
    answers (step (ready [0xFB] 1 0)) (looks · .busy .none 8 1 [0x2F] [0x2F, 0x00, 0x01]) = true := by decide +kernel

/-- P1, step 1. -/
theorem test_step_litU2 :
    answers (step (ready [0x57, 0x9F, 0x7F, 0x36] 3 0)) (looks · .busy .none 10 1 [0x65] [0x65, 0x00, 0x01, 0x02]) = true := by
  decide +kernel

/-- V-L9. -/
theorem test_step_litU3 :
    answers (step (ready [0xEF, 0x0F] 1 0)) (looks · .busy .none 12 1 [0xEF] [0xEF, 0x00, 0x01]) = true := by
  decide +kernel

/-- V-L11. -/
theorem test_step_litU4 :
    answers (step (ready [0xDF, 0x03] 1 0)) (looks · .busy .none 14 1 [0xFF] [0xFF, 0x00, 0x01]) = true := by
  decide +kernel

/-- V-L12: index 256 is out of range, not index 0. -/
theorem test_step_litU4_out_of_range :
    answers (step (ready [0x1F, 0x04] 1 0)) (looks · .error .indexOutOfRange 14 0 [] [0x00, 0x01]) = true := by
  decide +kernel

/-- V-L14. -/
theorem test_step_litIll :
    answers (step (ready [0x3F, 0x00] 1 0)) (looks · .error .indexOutOfRange 16 0 [] [0x00, 0x01]) = true := by
  decide +kernel

/-- V-L16: cut short, an illegal token reports `TruncatedStream`. -/
theorem test_step_litIll_cut :
    answers (step (ready [0x3F] 1 0)) (looks · .error .truncatedStream 8 0 [] [0x00, 0x01]) = true := by decide +kernel

/-- V-C8's third token: offset 2, length 5, overlapping. -/
theorem test_step_cpy5 :
    answers (step (readyWith [0x61, 0x62] [0x17, 0x9F, 0xEC, 0x20] 7 20))
      (looks · .busy .none 31 7 [0x61, 0x62, 0x61, 0x62, 0x61, 0x62, 0x61] [0x00]) = true := by decide +kernel

/-- V-C10: offset 5 at output length 2. -/
theorem test_step_cpy5_invalid :
    answers (step (readyWith [0x61, 0x62] [0x17, 0x9F, 0x6C, 0x02] 5 20))
      (looks · .error .invalidOffset 31 2 [0x61, 0x62] [0x00]) = true := by decide +kernel

/-- V-C14's third token. -/
theorem test_step_cpy10 :
    answers (step (readyWith [0x61, 0x62] [0x17, 0x9F, 0xAC, 0x00, 0x02] 6 20))
      (looks · .busy .none 36 6 [0x61, 0x62, 0x61, 0x62, 0x61, 0x62] [0x00]) = true := by decide +kernel

/-- V-C2's second token. -/
theorem test_step_cpy15 :
    answers (step (readyWith [0x61] [0x17, 0x03, 0x00, 0x00] 4 10))
      (looks · .busy .none 30 4 [0x61, 0x61, 0x61, 0x61] [0x00]) = true := by decide +kernel

/-- V-R1: no byte alignment, and the table stays. -/
theorem test_step_raw :
    answers (step (ready [0x02, 0x00, 0x29, 0x0D, 0x00] 2 0)) (looks · .busy .none 37 2 [0x48, 0x69] [0x00, 0x01]) = true := by
  decide +kernel

/-- V-R3: the bytes of an unfinished run stay counted. -/
theorem test_step_raw_cut :
    answers (step (ready [0x02, 0x00, 0x29, 0x0D] 2 0)) (looks · .error .truncatedStream 32 2 [0x48, 0x69] [0x00]) = true := by
  decide +kernel

/-- V-Q2: a target of zero ends at once. -/
theorem test_step_target_zero :
    answers (step (ready [0xFF] 0 0)) (looks · .done .none 0 0 [] [0x00]) = true := by decide +kernel

/-- V-F1 and V-F4: big-endian lengths, and the slice. -/
theorem test_framing :
    frameCodeBlock [0x00, 0x70, 0x78, 0x61, 0x00, 0x03, 0x00, 0x0C, 0x57, 0x9F, 0x7F, 0x36]
      = .load 3 [0x57, 0x9F, 0x7F, 0x36] ∧
    frameCodeBlock [0x00, 0x70, 0x78, 0x61, 0x01, 0x02, 0x00, 0x08] = .load 258 [] := by decide

/-- V-F2. -/
theorem test_pixel : pixelByte ⟨0xFF, 0x01, 0x02, 0x03⟩ = 0xDB := by decide

/-! ## Witnesses: states and operands that meet the hypotheses of the statements -/

/-- A block in the middle of a decode meets the invariant. -/
theorem ready_inv : Inv (ready [0x01] 1 0) where
  payload_wf := by decide
  payload_range := by decide
  out_wf := by decide
  out_filled a := by
    show (memRead [] a).isSome = true ↔ a < 0
    simp
  table_permutation _ := identityTable_isPermutation
  err_iff := by decide
  err_block := by decide
  cur_le := by decide
  cur_width := by decide
  olen_le := by decide

/-- A finished decode of one byte. -/
def finished : State := { ready [0x05] 1 6 with out := [(0, 1)], olen := 1, status := .done, hostMoves := [.readResult 0] }

theorem finished_inv : Inv finished where
  payload_wf := by decide
  payload_range := by decide
  out_wf := by decide
  out_filled a := by
    show (memRead [(0, 1)] a).isSome = true ↔ a < 1
    simp only [memRead]
    split <;> simp <;> omega
  table_permutation _ := identityTable_isPermutation
  err_iff := by decide
  err_block := by decide
  cur_le := by decide
  cur_width := by decide
  olen_le := by decide

theorem witness_PowerOnResetsFromAnyState :
    (withMoves [.powerOn] (ready [0x01] 1 3)).hostMoves = .powerOn :: [] := by decide

theorem witness_StartBeginsFreshDecode :
    (withMoves [.writeReg 0 3] finished).hostMoves = .writeReg 0 3 :: [] ∧ 3 % 2 = 1 ∧
    (withMoves [.writeReg 0 3] finished).status ≠ .busy := by decide

theorem witness_RunningDecodeIsUndisturbed_start :
    (withMoves [.writeReg 0 1] (ready [0x01] 1 0)).hostMoves = .writeReg 0 1 :: [] ∧
    (withMoves [.writeReg 0 1] (ready [0x01] 1 0)).status = .busy := by decide

theorem witness_RunningDecodeIsUndisturbed_length :
    (withMoves [.writeReg 4 9] (ready [0x01] 1 0)).hostMoves = .writeReg 4 9 :: [] ∧
    (withMoves [.writeReg 4 9] (ready [0x01] 1 0)).status = .busy ∧ HostMove.writeReg 4 9 ≠ .powerOn ∧
    HostMove.writeReg 4 9 ≠ .yield ∧ ∃ t, step (withMoves [.writeReg 4 9] (ready [0x01] 1 0)) = .next t :=
  ⟨rfl, rfl, by decide, by decide, _, rfl⟩

theorem witness_LengthWritesKeepLowBits_written :
    (withMoves [.writeReg 3 65537] State.reset).hostMoves = .writeReg 3 65537 :: [] ∧
    (withMoves [.writeReg 4 65536] State.reset).hostMoves = .writeReg 4 65536 :: [] ∧ State.reset.status ≠ .busy := by decide

theorem witness_LengthWritesKeepLowBits_ignored :
    (withMoves [.writeReg 4 9] (ready [0x01] 1 0)).hostMoves = .writeReg 4 9 :: [] ∧ (ready [0x01] 1 0).status = .busy ∧
    (withMoves [.writeReg 0 2] (ready [0x01] 1 0)).hostMoves = .writeReg 0 2 :: [] ∧ 2 % 2 = 0 := by decide

theorem witness_RegisterReadsHaveNoSideEffect :
    (withMoves [.readReg 0] finished).hostMoves = .readReg 0 :: [] ∧
    (withMoves [.readReg 6] finished).hostMoves = .readReg 6 :: [] ∧ 6 ≤ 6 := by decide

theorem witness_ResultWindowShowsOnlyResults_done :
    finished.hostMoves = .readResult 0 :: [] ∧ Inv finished ∧ finished.status = .done ∧
    finished.olen = finished.tlen.toNat ∧ 0 < finished.tlen.toNat :=
  ⟨rfl, finished_inv, rfl, by decide, by decide⟩

theorem witness_ResultWindowShowsOnlyResults_other :
    (withMoves [.readResult 0] (ready [0x01] 1 0)).hostMoves = .readResult 0 :: [] ∧
    (ready [0x01] 1 0).status ≠ .done := by decide

theorem witness_PayloadWriteLands :
    (withMoves [.writePayload 65534 7] State.reset).hostMoves = .writePayload 65534 7 :: [] ∧ 65534 ≤ 65534 ∧
    State.reset.status ≠ .busy := by decide

theorem witness_MeaninglessHostMovesStop :
    (withMoves [.readReg 7] State.reset).hostMoves = .readReg 7 :: [] ∧ 6 < 7 ∧
    (withMoves [.writePayload 65535 7] State.reset).hostMoves = .writePayload 65535 7 :: [] ∧ 65534 < 65535 ∧
    (withMoves [.writePayload 65534 7] (ready [0x01] 1 0)).hostMoves = .writePayload 65534 7 :: [] ∧
    (ready [0x01] 1 0).status = .busy := by decide

theorem witness_TransactionLoadsAndStarts :
    finished.status ≠ .busy ∧ ([0x57, 0x9F] : List Byte).length ≤ 65535 ∧ 65535 ≤ 65535 := by decide

theorem witness_ReadBitAdvancesOrFails :
    (ready [0x80] 1 7).cur < 8 * (ready [0x80] 1 7).plen.toNat ∧
    8 * (ready [0x80] 1 8).plen.toNat ≤ (ready [0x80] 1 8).cur := by decide

theorem witness_FieldIsSliceOfPayloadNumber :
    (ready [0x01, 0x80] 1 0).cur + 16 ≤ 8 * (ready [0x01, 0x80] 1 0).plen.toNat := by decide

theorem witness_ShortFieldConsumesTheRest :
    (ready [0x01] 1 8).cur ≤ 8 * (ready [0x01] 1 8).plen.toNat ∧
    8 * (ready [0x01] 1 8).plen.toNat < (ready [0x01] 1 8).cur + 1 := by decide

theorem witness_UnaryCountsOnesToTheZero :
    streamBits (ready [0x07] 1 0) = List.replicate 3 true ++ false :: [false, false, false, false] ∧
    (ready [0xFF] 1 0).cur ≤ 8 * (ready [0xFF] 1 0).plen.toNat ∧
    streamBits (ready [0xFF] 1 0) = List.replicate 8 true := by decide

/-- Tokens the encoding statements speak of, one of each row, at boundary operands. -/
theorem witness_wellFormed :
    [Instr.litU0 15, .litU1 0, .litU2 63, .litU3 127, .litU4 255, .litIll 5 511, .cpy5 31 3, .raw [255], .cpy10 1 10,
      .cpy15 32767 1024].all wellFormed = true := by decide

theorem witness_EncodeDecodeRoundTrip : decode (bitsOfBytes [0x01]) = .token (.litU0 0) [false, false] := by decide

theorem witness_TruncatedIffProperPrefix :
    (∃ data, decode [false, true] = .truncated data) ∧ wellFormed (.cpy5 0 3) = true ∧
    [false, true] <+: encode (.cpy5 0 3) ∧ [false, true] ≠ encode (.cpy5 0 3) :=
  ⟨⟨[], rfl⟩, by decide, by decide, by decide⟩

theorem witness_StepRunsDecodedToken :
    (ready [0x01] 1 0).status = .busy ∧ (ready [0x01] 1 0).olen ≠ (ready [0x01] 1 0).tlen.toNat ∧
    fetch (ready [0x01] 1 0) = .token (.litU0 0) [false, false] ∧ (ready [0x01] 1 0).hostMoves = [] ∧
    fetch (withMoves [.yield] (ready [0x01] 1 0)) = .token (.litU0 0) [false, false] := by decide

theorem witness_CutTokenTakesTruncatedStream :
    (ready [0x02, 0x00, 0x29, 0x0D] 2 0).hostMoves = [] ∧ (ready [0x02, 0x00, 0x29, 0x0D] 2 0).status = .busy ∧
    (ready [0x02, 0x00, 0x29, 0x0D] 2 0).olen ≠ (ready [0x02, 0x00, 0x29, 0x0D] 2 0).tlen.toNat ∧
    (ready [0x02, 0x00, 0x29, 0x0D] 2 0).cur ≤ 8 * (ready [0x02, 0x00, 0x29, 0x0D] 2 0).plen.toNat ∧
    fetch (ready [0x02, 0x00, 0x29, 0x0D] 2 0) = .truncated [0x48, 0x69] := by decide

theorem witness_LengthTestComesFirst :
    (ready [] 0 0).hostMoves = [] ∧ (ready [] 0 0).status = .busy ∧ (ready [] 0 0).olen = (ready [] 0 0).tlen.toNat := by
  decide

theorem witness_IdleBlockHoldsState : State.reset.hostMoves = [] ∧ State.reset.status ≠ .busy := by decide

theorem witness_CutTokenAgreesWithItsMeaning :
    wellFormed (.raw [0x48, 0x69]) = true ∧ streamBits (ready [0x02, 0x00, 0x29, 0x0D] 2 0) <+: encode (.raw [0x48, 0x69]) ∧
    streamBits (ready [0x02, 0x00, 0x29, 0x0D] 2 0) ≠ encode (.raw [0x48, 0x69]) := by decide

/-- The shortest payload that holds each class of `LIT`, and the two ends of class 4. -/
theorem witness_LitAppendsAndMovesToFront :
    (ready [0x3D] 1 2).cur + 6 ≤ 8 * (ready [0x3D] 1 2).plen.toNat ∧
    (ready [0xFB] 1 0).cur + 8 ≤ 8 * (ready [0xFB] 1 0).plen.toNat ∧
    (ready [0xF7, 0x03] 1 6).cur + 10 ≤ 8 * (ready [0xF7, 0x03] 1 6).plen.toNat ∧
    (ready [0xEF, 0x0F] 1 4).cur + 12 ≤ 8 * (ready [0xEF, 0x0F] 1 4).plen.toNat ∧
    (ready [0xDF, 0x03] 1 2).cur + 14 ≤ 8 * (ready [0xDF, 0x03] 1 2).plen.toNat ∧ (15 : BitVec 8).toNat ≤ 15 := by decide

theorem witness_LitIndexOutOfRange :
    litFields (.litU4 16) = some (4, 16) ∧ litFields (.litU4 15) = some (4, 15) ∧
    (ready [0x1F, 0x04] 1 0).cur + (6 + 2 * 4) ≤ 8 * (ready [0x1F, 0x04] 1 0).plen.toNat ∧
    256 ≤ 16 + (2 ^ 4 - 1) * 16 ∧ 15 + (2 ^ 4 - 1) * 16 < 256 := by decide

theorem witness_LitIllAlwaysFaults :
    5 ≤ 5 ∧ (ready [0x3F, 0x00] 1 0).cur + (6 + 2 * 5) ≤ 8 * (ready [0x3F, 0x00] 1 0).plen.toNat := by decide

theorem witness_SymTokenAppendsItsByte :
    Table.isPermutation (ready [0xDF, 0x03] 1 2).mtf ∧ (ready [0xDF, 0x03] 1 2).cur + 14 ≤ 8 * (ready [0xDF, 0x03] 1 2).plen.toNat :=
  ⟨identityTable_isPermutation, by decide⟩

/-- One copy of each width, at an offset equal to `OLEN` (legal, R110). -/
theorem witness_CopyAppendsRepeatedOutput :
    copyFields (.cpy5 0 3) = some (8, 1, 3) ∧ copyFields (.cpy10 1 3) = some (13, 2, 3) ∧
    copyFields (.cpy15 0 3) = some (17, 1, 3) ∧
    (readyWith [7] [0, 0, 0] 9 4).cur + copyBits 17 3 ≤ 8 * (readyWith [7] [0, 0, 0] 9 4).plen.toNat ∧
    1 ≤ (readyWith [7] [0, 0, 0] 9 4).olen ∧
    (readyWith [7, 8] [0, 0] 9 0).cur + copyBits 13 3 ≤ 8 * (readyWith [7, 8] [0, 0] 9 0).plen.toNat ∧
    2 ≤ (readyWith [7, 8] [0, 0] 9 0).olen := by decide

theorem witness_CopyBeyondOutputFaults :
    copyFields (.cpy5 2 3) = some (8, 3, 3) ∧
    (readyWith [7, 8] [0, 0] 9 5).cur + copyBits 8 3 ≤ 8 * (readyWith [7, 8] [0, 0] 9 5).plen.toNat ∧
    (readyWith [7, 8] [0, 0] 9 5).olen < 3 := by decide

/-- A state that already holds `InvalidOffset`, where the second clause's premises hold. -/
theorem witness_CopyBeyondOutputFaults_raw :
    ∃ t, exec (.raw []) { ready [0, 0, 0] 9 3 with err := .invalidOffset } = .next t ∧ t.err = .invalidOffset :=
  ⟨_, rfl, rfl⟩

theorem witness_OffsetSpellingsBehaveAlike :
    copyFields (.cpy5 1 3) = some (8, 2, 3) ∧ copyFields (.cpy10 1 3) = some (13, 2, 3) ∧
    (readyWith [7, 8] [0, 0] 9 0).cur + copyBits 8 3 ≤ 8 * (readyWith [7, 8] [0, 0] 9 0).plen.toNat ∧
    (readyWith [7, 8] [0, 0] 9 0).cur + copyBits 13 3 ≤ 8 * (readyWith [7, 8] [0, 0] 9 0).plen.toNat := by decide

theorem witness_RawAppendsItsData :
    (ready [0x02, 0x00, 0x29, 0x0D, 0x00] 2 3).cur + (21 + 8 * ([0x48, 0x69] : List Byte).length) ≤
      8 * (ready [0x02, 0x00, 0x29, 0x0D, 0x00] 2 3).plen.toNat := by decide

theorem witness_OnlyLitTouchesTheTable :
    isCopyClass (.cpy15 0 3) = true ∧ ∃ t, exec (.cpy15 0 3) (readyWith [7] [0, 0, 0] 9 4) = .next t := ⟨rfl, _, rfl⟩

theorem witness_EveryTokenCutShortFaults :
    (ready [0x02, 0x00, 0x29, 0x0D] 2 0).cur ≤ 8 * (ready [0x02, 0x00, 0x29, 0x0D] 2 0).plen.toNat ∧
    8 * (ready [0x02, 0x00, 0x29, 0x0D] 2 0).plen.toNat <
      (ready [0x02, 0x00, 0x29, 0x0D] 2 0).cur + tokenBits (.raw [0x48, 0x69]) := by decide

theorem witness_StepKeepsInvariant : Inv (ready [0x01] 1 0) ∧ ∃ t, step (ready [0x01] 1 0) = .next t := ⟨ready_inv, _, rfl⟩

/-- `CPY5 1,3` as the first token (V-C11). -/
theorem witness_FaultIsFinal :
    (ready [0x06, 0x00] 3 0).status = .busy ∧ ∃ t, blockStep (ready [0x06, 0x00] 3 0) = .next t ∧ t.status = .error :=
  ⟨rfl, _, rfl, rfl⟩

theorem witness_OnlyStartOrPowerOnLeavesError :
    ∃ t, step (withMoves [.writeReg 0 1] { ready [0x06, 0x00] 3 0 with status := .error }) = .next t ∧ t.status ≠ .error :=
  ⟨_, rfl, by decide⟩

theorem witness_OnlyStartOrPowerOnLeavesError_powerOn :
    ∃ t, step (withMoves [.powerOn] { ready [0x06, 0x00] 3 0 with status := .error }) = .next t ∧ t.status ≠ .error :=
  ⟨_, rfl, by decide⟩

theorem witness_InputsAreConstantDuringDecode :
    (ready [0x01] 1 0).status = .busy ∧ (∀ ms, (ready [0x01] 1 0).hostMoves ≠ .powerOn :: ms) ∧
    ∃ t, step (ready [0x01] 1 0) = .next t :=
  ⟨rfl, fun ms => by show ([] : List HostMove) ≠ .powerOn :: ms; simp, _, rfl⟩

theorem witness_CursorAndOutputOnlyGrow : ∃ t, blockStep (readyWith [7] [0x01] 2 0) = .next t := ⟨_, rfl⟩

theorem witness_OvershootEndsInFault :
    (readyWith [7, 8] [0x01] 1 0).status = .busy ∧ (readyWith [7, 8] [0x01] 1 0).tlen.toNat < (readyWith [7, 8] [0x01] 1 0).olen := by
  decide

theorem witness_DecodeIsFunctionOfInputs : sameInputs (ready [0x01] 1 0) (readyWith [7] [0x01] 1 5) :=
  ⟨rfl, rfl, fun _ _ => rfl⟩

/-- V-Q7 against V-L1's form: `LIT 0`, one payload with trailing bytes and one without. -/
theorem witness_UnreachedBitsDoNotMatter :
    (runBlock 2 (start (ready [0x01] 1 0))).status = .done ∧ (ready [0xC1, 0xFF] 1 0).tlen = (ready [0x01] 1 0).tlen ∧
    (∀ c, c < 6 → payloadBit (ready [0xC1, 0xFF] 1 0) c = payloadBit (ready [0x01] 1 0) c) ∧
    (runBlock 2 (start (ready [0x01] 1 0))).cur = 6 ∧ 6 ≤ 8 * (ready [0xC1, 0xFF] 1 0).plen.toNat := by decide +kernel

theorem witness_DoneDeliversExactlyTheTarget : (runBlock 2 (start (ready [0x01] 1 0))).status = .done := by
  decide +kernel

theorem witness_MtfTakeKeepsPermutation : Table.isPermutation identityTable := identityTable_isPermutation

theorem witness_CountersFitTheirRegisters : Inv finished := finished_inv

theorem witness_BlockStepFollowsPseudocode : (ready [0x01] 1 0).status = .busy := rfl

theorem witness_TableIndexHasOneSpelling : 255 < 256 := by decide

theorem witness_FramingReadsLengthsAndSlice :
    (0x00 : Byte).toNat * 256 + (0x0C : Byte).toNat = 8 + ([0x57, 0x9F, 0x7F, 0x36] : List Byte).length := by decide

theorem witness_WrongMagicIsUnsupportedFormat :
    ([0x58, 0x58, 0x58, 0x58] : List Byte).take 4 ≠ [0x00, 0x70, 0x78, 0x61] := by decide

end Sys2Proof.Tests
end

/-! ## Two decodes of the same inputs (R5)

Two states that agree on the inputs and on all that one decode owns stay so at every turn of the block. What they may
differ in is the host's side, the payload beyond `PLEN`, and the free value that an `OUT` position without a byte reads
as. The block never meets such a position, since a copy reads below `OLEN` only: hence the clause `filled`. -/

namespace Sys2Proof.Machine

/-- The two states are at the same point of a decode of the same inputs. -/
structure SameDecode (s t : State) : Prop where
  inputs : sameInputs s t
  cur : s.cur = t.cur
  olen : s.olen = t.olen
  out : s.out = t.out
  mtf : s.mtf = t.mtf
  status : s.status = t.status
  err : s.err = t.err
  /-- Every position below `OLEN` holds a byte (R13, R19). -/
  filled : ∀ a, a < s.olen → (memRead s.out a).isSome = true

/-- Both answers are next states, at the same point of a decode of the same inputs. -/
def SameOutcome (r q : Result) : Prop := ∃ s t, r = .next s ∧ q = .next t ∧ SameDecode s t

namespace SameDecode

theorem decodeView_eq {s t : State} (h : SameDecode s t) : decodeView s = decodeView t := by
  simp only [decodeView, h.status, h.err, h.cur, h.olen, h.out, h.mtf]

/-- START makes the two states alike in all but the inputs, which it keeps (R120). -/
theorem of_start {s t : State} (h : sameInputs s t) : SameDecode (start s) (start t) where
  inputs := h
  cur := rfl
  olen := rfl
  out := rfl
  mtf := rfl
  status := rfl
  err := rfl
  filled := fun _ ha => absurd ha (Nat.not_lt_zero _)

section
variable {s t : State} (h : SameDecode s t)
include h

/-! ### What the block reads of the state -/

theorem payloadBits_eq : payloadBits s = payloadBits t := by
  rw [payloadBits, payloadBits, h.inputs.1]

theorem bitsLeft_eq : bitsLeft s = bitsLeft t := by
  rw [bitsLeft, bitsLeft, h.payloadBits_eq, h.cur]

theorem bitsRemain_eq (n : Nat) : bitsRemain n s = bitsRemain n t := by
  rw [bitsRemain, bitsRemain, h.payloadBits_eq, h.cur]

theorem rawValuesLeft_eq : rawValuesLeft s = rawValuesLeft t := by
  rw [rawValuesLeft, rawValuesLeft, h.bitsLeft_eq]

/-- A bit within the payload is a bit of a byte below `PLEN`. -/
theorem payloadBit_eq {c : Nat} (hc : c < payloadBits s) : payloadBit s c = payloadBit t c := by
  obtain ⟨-, -, hbytes⟩ := h.inputs
  have hbyte : c / 8 < s.plen.toNat := Nat.div_lt_of_lt_mul hc
  rw [payloadBit, payloadBit, hbytes _ hbyte]

theorem streamBits_eq : streamBits s = streamBits t := by
  rw [streamBits, streamBits, ← h.bitsLeft_eq, ← h.cur]
  refine List.map_congr_left fun i hi => h.payloadBit_eq ?_
  have hlt : i < payloadBits s - s.cur := List.mem_range.mp hi
  omega

/-- Below `OLEN` a read meets a written byte, so no free value enters. -/
theorem outByte_eq {a : Nat} (ha : a < s.olen) : outByte s a = outByte t a := by
  obtain ⟨b, hb⟩ := Option.isSome_iff_exists.mp (h.filled a ha)
  rw [outByte, outByte, ← h.out, hb, Option.getD_some, Option.getD_some]

/-! ### The shared operations -/

theorem advance (n : Nat) : SameDecode (advance n s) (advance n t) :=
  { h with cur := by rw [advance_cur, advance_cur, h.cur] }

theorem exhaust : SameDecode (exhaust s) (exhaust t) :=
  { h with cur := by rw [exhaust_cur, exhaust_cur, h.cur, h.payloadBits_eq] }

theorem append (b : Byte) : SameDecode (append b s) (append b t) :=
  { h with
    olen := by rw [append_olen, append_olen, h.olen]
    out := by rw [append_out, append_out, h.out, h.olen]
    filled := by
      intro a ha
      rw [append_olen] at ha
      rw [append_out, memRead_memWrite]
      split
      · rfl
      · exact h.filled a (by omega) }

theorem litTake (i : Fin 256) : SameDecode (litTake i s) (litTake i t) := by
  have hm : SameDecode { s with mtf := (mtfTake s.mtf i).2 } { t with mtf := (mtfTake t.mtf i).2 } :=
    { h with mtf := by simp only [h.mtf] }
  unfold Machine.litTake
  rw [h.mtf] at hm ⊢
  exact hm.append _

theorem done : SameDecode { s with status := .done } { t with status := .done } := { h with status := rfl }

theorem raise (e : Err) : SameOutcome (raise e s) (raise e t) :=
  ⟨_, _, raise_eq e s, raise_eq e t, { h with status := rfl, err := rfl }⟩

end

theorem appendAll (data : List Byte) :
    ∀ {s t : State}, SameDecode s t → SameDecode (appendAll data s) (appendAll data t) := by
  induction data with
  | nil => intro s t h; exact h
  | cons b bs ih => intro s t h; exact ih (h.append b)

/-- The copy loop reads below `OLEN` at every turn, as long as the offset is within the output (R109, R111). -/
theorem copyBytes (n : Nat) {offset : Nat} (hpos : 0 < offset) :
    ∀ {s t : State}, SameDecode s t → offset ≤ s.olen → SameDecode (copyBytes n offset s) (copyBytes n offset t) := by
  induction n with
  | zero => intro s t h _; exact h
  | succ n ih =>
    intro s t h hle
    have hbyte : outByte s (s.olen - offset) = outByte t (t.olen - offset) := by
      rw [h.outByte_eq (by omega), h.olen]
    rw [Machine.copyBytes, Machine.copyBytes, ← hbyte]
    exact ih (h.append _) (by rw [append_olen]; omega)

section
variable {s t : State} (h : SameDecode s t)
include h

/-! ### The tokens -/

theorem litToken (u l : Nat) : SameOutcome (litToken u l s) (litToken u l t) := by
  unfold Machine.litToken
  rw [← h.bitsRemain_eq]
  split
  · split
    · exact ⟨_, _, rfl, rfl, (h.advance _).litTake _⟩
    · exact (h.advance _).raise _
  · exact h.exhaust.raise _

theorem copyToken (header o len : Nat) :
    SameOutcome (copyToken header (copyOffset o) len s) (copyToken header (copyOffset o) len t) := by
  unfold Machine.copyToken
  rw [← h.bitsRemain_eq, ← h.olen]
  split
  · split
    · next hle => exact ⟨_, _, rfl, rfl, copyBytes len (Nat.succ_pos o) (h.advance _) hle⟩
    · exact (h.advance _).raise _
  · exact h.exhaust.raise _

theorem execRaw (data : List Byte) : SameOutcome (execRaw data s) (execRaw data t) := by
  unfold Machine.execRaw
  rw [← h.bitsRemain_eq, ← h.rawValuesLeft_eq]
  split
  · exact ⟨_, _, rfl, rfl, appendAll data (h.advance _)⟩
  · exact (appendAll _ h.exhaust).raise _

theorem exec (i : Instr) : SameOutcome (exec i s) (exec i t) := by
  cases i with
  | litU0 l => exact h.litToken 0 l.toNat
  | litU1 l => exact h.litToken 1 l.toNat
  | litU2 l => exact h.litToken 2 l.toNat
  | litU3 l => exact h.litToken 3 l.toNat
  | litU4 l => exact h.litToken 4 l.toNat
  | litIll u l => exact h.litToken u l
  | cpy5 o len => exact h.copyToken 8 o.toNat len
  | raw data => exact h.execRaw data
  | cpy10 o len => exact h.copyToken 13 o.toNat len
  | cpy15 o len => exact h.copyToken 17 o.toNat len

/-! ### The block's turns -/

theorem carryOut (d : DecodeResult) : SameOutcome (carryOut d s) (carryOut d t) := by
  cases d with
  | token i rest => exact h.exec i
  | truncated data => exact (appendAll data h.exhaust).raise _

theorem blockStep : SameOutcome (blockStep s) (blockStep t) := by
  obtain ⟨-, htlen, -⟩ := h.inputs
  have htest : t.olen = t.tlen.toNat ↔ s.olen = s.tlen.toNat := by rw [h.olen, htlen]
  simp only [Machine.blockStep, fetch, ← h.status, htest, ← h.streamBits_eq]
  split
  · split
    · exact ⟨_, _, rfl, rfl, h.done⟩
    · exact h.carryOut _
  · exact ⟨_, _, rfl, rfl, h⟩

end

end SameDecode

/-- One turn that answers a next state, and then the rest of the run. -/
theorem runBlock_succ_of_next {s s' : State} (h : blockStep s = .next s') (k : Nat) :
    runBlock (k + 1) s = runBlock k s' := by
  rw [runBlock, h]

theorem SameDecode.runBlock (k : Nat) :
    ∀ {s t : State}, SameDecode s t → SameDecode (runBlock k s) (runBlock k t) := by
  induction k with
  | zero => intro s t h; exact h
  | succ k ih =>
    intro s t h
    obtain ⟨s', t', hs, ht, h'⟩ := h.blockStep
    rw [runBlock_succ_of_next hs, runBlock_succ_of_next ht]
    exact ih h'

/-- Settles O51: START makes the two states alike in all that a decode owns, and every turn of the block keeps them
so. -/
theorem decodeIsFunctionOfInputs : Obligations.DecodeIsFunctionOfInputs := by
  intro s t hinputs k
  exact ((SameDecode.of_start hinputs).runBlock k).decodeView_eq

end Sys2Proof.Machine


/-! ## What a token does to the state (R11, R37, R75, R90, R103, R109)

Every token, complete or cut short, reads some bits, may rearrange the table, appends some bytes, and then either ends
or takes one of the block's faults. That one fact gives both what the block's turn keeps of the invariant and what it
only lets grow. -/

namespace Sys2Proof

open Machine

/-- `u` is a state that a token reaches from `s`: `n` bits read, the table rearranged to `m`, and the bytes `data`
appended, at most three for each bit read (R13). -/
inductive Progress (s u : State) : Prop where
  | mk (n : Nat) (data : List Byte) (m : Table) (bits : n ≤ bitsLeft s) (rate : data.length ≤ 3 * n)
      (table : m.entries.Perm s.mtf.entries) (eq : u = appendAll data (advance n { s with mtf := m }))

/-- The answer of a token: the state it has reached, or one of the block's faults raised there (R136). -/
inductive TokenOutcome (s : State) (r : Result) : Prop where
  | ended (u : State) (progress : Progress s u) (eq : r = .next u)
  | faulted (u : State) (e : Err) (progress : Progress s u) (code : e ≠ .none ∧ blockWrites e = true)
      (eq : r = raise e u)

/-! ### The shared operations as progress -/

theorem le_bitsLeft_of_bitsRemain {n : Nat} {s : State} (h : bitsRemain n s = true) : n ≤ bitsLeft s := by
  rw [bitsRemain, decide_eq_true_eq] at h
  rw [bitsLeft]
  omega

/-- A failing read has consumed all the bits that were left (R73). -/
theorem exhaust_eq_advance (s : State) : exhaust s = advance (bitsLeft s) s := by
  have hcur : max s.cur (payloadBits s) = s.cur + bitsLeft s := by rw [bitsLeft]; omega
  rw [exhaust, advance, hcur]

/-- A copy appends some bytes, as many as its length (R109). -/
theorem copyBytes_eq_appendAll (n offset : Nat) :
    ∀ s : State, ∃ data : List Byte, data.length = n ∧ copyBytes n offset s = appendAll data s := by
  induction n with
  | zero => exact fun s => ⟨[], rfl, rfl⟩
  | succ n ih =>
    intro s
    obtain ⟨data, hlen, hcopy⟩ := ih (append (outByte s (s.olen - offset)) s)
    exact ⟨outByte s (s.olen - offset) :: data, congrArg (· + 1) hlen, hcopy⟩

/-- `mtf_take` only rearranges the entries (R93, R94). -/
theorem moveToFront_perm (t : Table) (i : Fin 256) : (moveToFront t i).entries.Perm t.entries :=
  List.getElem_cons_eraseIdx_perm (by rw [t.size]; exact i.isLt)

namespace Progress

theorem advance {n : Nat} {s : State} (h : n ≤ bitsLeft s) : Progress s (advance n s) :=
  ⟨n, [], s.mtf, h, Nat.zero_le _, .refl _, rfl⟩

theorem appendAll_advance {n : Nat} {data : List Byte} {s : State} (h : n ≤ bitsLeft s) (hrate : data.length ≤ 3 * n) :
    Progress s (appendAll data (Machine.advance n s)) :=
  ⟨n, data, s.mtf, h, hrate, .refl _, rfl⟩

theorem exhaust (s : State) : Progress s (exhaust s) :=
  exhaust_eq_advance s ▸ advance le_rfl

theorem appendAll_exhaust {data : List Byte} {s : State} (h : data.length ≤ 3 * bitsLeft s) :
    Progress s (appendAll data (Machine.exhaust s)) :=
  exhaust_eq_advance s ▸ appendAll_advance le_rfl h

theorem litTake_advance {n : Nat} (i : Fin 256) {s : State} (h : n ≤ bitsLeft s) (hpos : 1 ≤ n) :
    Progress s (litTake i (Machine.advance n s)) :=
  ⟨n, [tableAt s.mtf i], moveToFront s.mtf i, h, by rw [List.length_singleton]; omega, moveToFront_perm _ _, rfl⟩

end Progress

/-! ### The tokens -/

theorem litToken_outcome (u l : Nat) (s : State) : TokenOutcome s (litToken u l s) := by
  obtain ⟨hbits, hidx, heq⟩ | ⟨hbits, -, heq⟩ | ⟨-, heq⟩ := litToken_cases u l s
  · have hpos : 1 ≤ litBits u := by rw [litBits]; omega
    exact .ended _ (.litTake_advance _ (le_bitsLeft_of_bitsRemain hbits) hpos) heq
  · exact .faulted _ _ (.advance (le_bitsLeft_of_bitsRemain hbits)) (by decide) heq
  · exact .faulted _ _ (.exhaust s) (by decide) heq

/-- A group of three bits stands for at most seven bytes, and the header's bits for the rest of the length. -/
theorem length_le_three_copyBits (header len : Nat) : len ≤ 3 * copyBits header len := by
  simp only [copyBits, groupCount, Config.lenBase]
  omega

theorem copyToken_outcome (header offset len : Nat) (s : State) : TokenOutcome s (copyToken header offset len s) := by
  obtain ⟨hbits, -, heq⟩ | ⟨hbits, -, heq⟩ | ⟨-, heq⟩ := copyToken_cases header offset len s
  · obtain ⟨data, hlen, hcopy⟩ := copyBytes_eq_appendAll len offset (advance (copyBits header len) s)
    have hrate : data.length ≤ 3 * copyBits header len := hlen.trans_le (length_le_three_copyBits header len)
    exact .ended _ (hcopy ▸ .appendAll_advance (le_bitsLeft_of_bitsRemain hbits) hrate) heq
  · exact .faulted _ _ (.advance (le_bitsLeft_of_bitsRemain hbits)) (by decide) heq
  · exact .faulted _ _ (.exhaust s) (by decide) heq

theorem execRaw_outcome (data : List Byte) (s : State) : TokenOutcome s (execRaw data s) := by
  obtain ⟨hbits, heq⟩ | ⟨-, heq⟩ := execRaw_cases data s
  · have hrate : data.length ≤ 3 * rawBits data.length := by rw [rawBits]; omega
    exact .ended _ (.appendAll_advance (le_bitsLeft_of_bitsRemain hbits) hrate) heq
  · have hrate : (data.take (rawValuesLeft s)).length ≤ 3 * bitsLeft s := by
      rw [List.length_take, rawValuesLeft, Config.rawWidth]; omega
    exact .faulted _ _ (.appendAll_exhaust hrate) (by decide) heq

theorem exec_outcome (i : Instr) (s : State) : TokenOutcome s (exec i s) := by
  cases i with
  | litU0 l => exact litToken_outcome 0 l.toNat s
  | litU1 l => exact litToken_outcome 1 l.toNat s
  | litU2 l => exact litToken_outcome 2 l.toNat s
  | litU3 l => exact litToken_outcome 3 l.toNat s
  | litU4 l => exact litToken_outcome 4 l.toNat s
  | litIll u l => exact litToken_outcome u l s
  | cpy5 o len => exact copyToken_outcome 8 (copyOffset o.toNat) len s
  | raw data => exact execRaw_outcome data s
  | cpy10 o len => exact copyToken_outcome 13 (copyOffset o.toNat) len s
  | cpy15 o len => exact copyToken_outcome 17 (copyOffset o.toNat) len s

/-! ### A token that the payload cuts short

The data bytes of an unfinished `RAW` were read from the bits that were left, eight for each. -/

theorem length_streamBits (s : State) : (streamBits s).length = bitsLeft s := by
  rw [streamBits, List.length_map, List.length_range]

/-- A field takes its `n` bits from the stream (R72). -/
theorem length_of_takeField {n : Nat} :
    ∀ {bs rest : Bits} {v : Nat}, takeField n bs = some (v, rest) → bs.length = n + rest.length := by
  induction n with
  | zero =>
    intro bs rest v h
    obtain ⟨-, rfl⟩ := Prod.mk.inj (Option.some.inj h)
    exact (Nat.zero_add _).symm
  | succ n ih =>
    intro bs rest v h
    cases bs with
    | nil => exact absurd h (by simp [takeField])
    | cons b bs =>
      obtain ⟨⟨w, rest'⟩, hfield, heq⟩ := Option.map_eq_some_iff.mp h
      obtain ⟨-, rfl⟩ := Prod.mk.inj heq
      rw [List.length_cons, ih hfield, Nat.add_right_comm]

/-- Each data byte of a raw run is eight bits of the stream (R56, R103). -/
theorem length_takeRawBody_le (bs : Bits) : 8 * (takeRawBody bs).1.length ≤ bs.length := by
  induction bs using takeRawBody.induct with
  | case1 b0 b1 b2 b3 b4 b5 b6 b7 bs hzero => simp [takeRawBody, hzero]
  | case2 b0 b1 b2 b3 b4 b5 b6 b7 bs hvalue ih =>
    simp only [takeRawBody, if_neg hvalue, List.length_cons]
    omega
  | case3 bs _ => simp [takeRawBody]

/-- If the decoder says that the bits end inside a token, the data bytes it reports were eight of these bits each. -/
def TruncatedWithin (bs : Bits) (d : DecodeResult) : Prop := ∀ data, d = .truncated data → 8 * data.length ≤ bs.length

theorem truncatedWithin_nil (bs : Bits) : TruncatedWithin bs (.truncated []) := by
  rintro _ ⟨⟩
  exact Nat.zero_le _

theorem truncatedWithin_token (bs : Bits) (i : Instr) (rest : Bits) : TruncatedWithin bs (.token i rest) := by
  rintro _ ⟨⟩

theorem TruncatedWithin.mono {bs bs' : Bits} {d : DecodeResult} (h : TruncatedWithin bs d)
    (hle : bs.length ≤ bs'.length) : TruncatedWithin bs' d :=
  fun data hd => (h data hd).trans hle

theorem decodeLit_truncatedWithin (bs : Bits) : TruncatedWithin bs (decodeLit bs) := by
  unfold decodeLit
  split
  · exact truncatedWithin_nil bs
  · split
    · exact truncatedWithin_nil bs
    · exact truncatedWithin_token bs _ _

theorem decodeCopyLength_truncatedWithin (mk : Nat → Instr) (bs : Bits) :
    TruncatedWithin bs (decodeCopyLength mk bs) := by
  unfold decodeCopyLength
  split
  · exact truncatedWithin_nil bs
  · exact truncatedWithin_token bs _ _

theorem decodeRaw_truncatedWithin (bs : Bits) : TruncatedWithin bs (decodeRaw bs) := by
  have hbody := length_takeRawBody_le bs
  unfold decodeRaw
  split
  · next heq =>
    rintro _ ⟨⟩
    rwa [heq] at hbody
  · exact truncatedWithin_token bs _ _

theorem decodeOffset_truncatedWithin (w : Nat) (mk : Nat → Nat → Instr) (bs : Bits) :
    TruncatedWithin bs (decodeOffset w mk bs) := by
  unfold decodeOffset
  split
  · exact truncatedWithin_nil bs
  · next o rest hfield =>
    have hle : rest.length ≤ bs.length := by rw [length_of_takeField hfield]; omega
    split
    · exact (decodeRaw_truncatedWithin rest).mono hle
    · exact (decodeCopyLength_truncatedWithin _ rest).mono hle

theorem decodeCopyClass_truncatedWithin (bs : Bits) : TruncatedWithin bs (decodeCopyClass bs) := by
  unfold decodeCopyClass
  split
  · exact (decodeOffset_truncatedWithin 5 _ _).mono (by simp only [List.length_cons]; omega)
  · exact (decodeOffset_truncatedWithin 10 _ _).mono (by simp only [List.length_cons]; omega)
  · exact (decodeOffset_truncatedWithin 15 _ _).mono (by simp only [List.length_cons]; omega)
  · exact truncatedWithin_nil _

theorem decode_truncatedWithin (bs : Bits) : TruncatedWithin bs (decode bs) := by
  match bs with
  | [] => exact truncatedWithin_nil []
  | true :: bs => exact (decodeLit_truncatedWithin bs).mono (Nat.le_succ _)
  | false :: bs => exact (decodeCopyClass_truncatedWithin bs).mono (Nat.le_succ _)

/-- Whatever the bits at the cursor spell, carrying it out is progress, with or without a fault at its end. -/
theorem carryOut_fetch_outcome (s : State) : TokenOutcome s (carryOut (fetch s) s) := by
  cases hfetch : fetch s with
  | token i rest => exact exec_outcome i s
  | truncated data =>
    have hbits := decode_truncatedWithin (streamBits s) data hfetch
    rw [length_streamBits] at hbits
    exact .faulted _ _ (.appendAll_exhaust (by omega)) (by decide) rfl

/-! ### What progress keeps -/

/-- Appending keeps `OUT` filled exactly below `OLEN` (R13, R37). -/
theorem appendAll_out_filled (data : List Byte) {s : State} (h : ∀ a, (memRead s.out a).isSome = true ↔ a < s.olen)
    (a : Nat) : (memRead (appendAll data s).out a).isSome = true ↔ a < (appendAll data s).olen := by
  obtain ⟨holen, happended, hout, -⟩ := appendAll_spec data s
  rw [holen]
  by_cases hnew : s.olen ≤ a ∧ a < s.olen + data.length
  · obtain ⟨j, rfl⟩ := Nat.exists_eq_add_of_le hnew.1
    have hj : j < data.length := by omega
    rw [happended j hj, List.getElem?_eq_getElem hj]
    exact iff_of_true rfl hnew.2
  · rw [hout a hnew, h a]
    omega

namespace Progress

variable {s u : State} (h : Progress s u)
include h

theorem keepsHostSide : KeepsHostSide s u := by
  obtain ⟨n, data, m, -, -, -, rfl⟩ := h
  exact { appendAll_keepsHostSide data _ with }

theorem keepsStatus : KeepsStatus s u := by
  obtain ⟨n, data, m, -, -, -, rfl⟩ := h
  exact { appendAll_keepsStatus data _ with }

theorem cur_le : s.cur ≤ u.cur := by
  obtain ⟨n, data, m, -, -, -, rfl⟩ := h
  rw [appendAll_cur, advance_cur]
  exact Nat.le_add_right _ _

/-- The cursor never passes the end of the payload (R12, R75). -/
theorem cur_le_max : u.cur ≤ max s.cur (payloadBits s) := by
  obtain ⟨n, data, m, hbits, -, -, rfl⟩ := h
  rw [bitsLeft] at hbits
  rw [appendAll_cur, advance_cur]
  dsimp only
  omega

theorem olen_le : s.olen ≤ u.olen := by
  obtain ⟨n, data, m, -, -, -, rfl⟩ := h
  rw [appendAll_olen, advance_olen]
  exact Nat.le_add_right _ _

/-- At most three bytes for each bit read (R13). -/
theorem olen_add_le : u.olen + 3 * s.cur ≤ s.olen + 3 * u.cur := by
  obtain ⟨n, data, m, -, hrate, -, rfl⟩ := h
  rw [appendAll_olen, appendAll_cur, advance_olen, advance_cur]
  dsimp only
  omega

/-- No byte once appended changes (R19). -/
theorem memRead_out {a : Nat} (ha : a < s.olen) : memRead u.out a = memRead s.out a := by
  obtain ⟨n, data, m, -, -, -, rfl⟩ := h
  obtain ⟨-, -, hout, -⟩ := appendAll_spec data (Machine.advance n { s with mtf := m })
  exact hout a fun hin => absurd hin.1 (Nat.not_le.mpr ha)

theorem out_wf (hwf : Memory.wf s.out = true) : Memory.wf u.out = true := by
  obtain ⟨n, data, m, -, -, -, rfl⟩ := h
  exact appendAll_out_wf data hwf

theorem out_filled (hfilled : ∀ a, (memRead s.out a).isSome = true ↔ a < s.olen) (a : Nat) :
    (memRead u.out a).isSome = true ↔ a < u.olen := by
  obtain ⟨n, data, m, -, -, -, rfl⟩ := h
  exact appendAll_out_filled data (s := Machine.advance n { s with mtf := m }) hfilled a

theorem table_permutation (hperm : Table.isPermutation s.mtf) : Table.isPermutation u.mtf := by
  obtain ⟨n, data, m, -, -, htable, rfl⟩ := h
  rw [appendAll_mtf]
  exact htable.nodup_iff.mpr hperm

end Progress

/-- `8 * PLEN` fits the 19 bits of `CUR` (R12). -/
theorem payloadBits_le (s : State) : payloadBits s ≤ 524280 := by
  have := s.plen.isLt
  rw [payloadBits]
  omega

namespace Inv

theorem of_progress {s u : State} (h : Inv s) (hp : Progress s u) : Inv u := by
  obtain ⟨hstatus, herr⟩ := hp.keepsStatus
  have hbits : payloadBits u = payloadBits s := by rw [payloadBits, payloadBits, hp.keepsHostSide.plen]
  exact
    { payload_wf := hp.keepsHostSide.payload ▸ h.payload_wf
      payload_range := hp.keepsHostSide.payload ▸ h.payload_range
      out_wf := hp.out_wf h.out_wf
      out_filled := hp.out_filled h.out_filled
      table_permutation := fun hidle => hp.table_permutation (h.table_permutation (hstatus ▸ hidle))
      err_iff := by rw [hstatus, herr]; exact h.err_iff
      err_block := herr ▸ h.err_block
      cur_le := fun hbusy => hbits ▸ hp.cur_le_max.trans (max_le (h.cur_le (hstatus ▸ hbusy)) le_rfl)
      cur_width := hp.cur_le_max.trans (max_le h.cur_width (payloadBits_le s))
      olen_le := by
        have hrate := hp.olen_add_le
        have holen := h.olen_le
        omega }

/-! ### The other changes of the state -/

/-- Taking one of the block's faults during a decode (R136). -/
theorem fault {s : State} (h : Inv s) (hidle : s.status ≠ .idle) {e : Err} (hcode : e ≠ .none ∧ blockWrites e = true) :
    Inv { s with err := e, status := .error } :=
  { h with
    table_permutation := fun _ => h.table_permutation hidle
    err_iff := iff_of_true hcode.1 rfl
    err_block := hcode.2
    cur_le := by rintro ⟨⟩ }

/-- The length test that ends a decode (R82). -/
theorem done {s : State} (h : Inv s) (hbusy : s.status = .busy) : Inv { s with status := .done } :=
  { h with
    table_permutation := fun _ => h.table_permutation (by rw [hbusy]; decide)
    err_iff := h.err_iff.trans (by rw [hbusy]; simp)
    cur_le := by rintro ⟨⟩ }

/-- The invariant does not speak of the host's own fields. -/
theorem hostFields {s : State} (h : Inv s) (ms : List HostMove) (v d : Nat) :
    Inv { s with hostMoves := ms, readData := v, draws := d } := { h with }

theorem plen {s : State} (h : Inv s) (hbusy : s.status ≠ .busy) (n : BitVec 16) : Inv { s with plen := n } :=
  { h with cur_le := fun hb => absurd hb hbusy }

theorem tlen {s : State} (h : Inv s) (n : BitVec 16) : Inv { s with tlen := n } := { h with }

theorem start {s : State} (h : Inv s) : Inv (start s) where
  payload_wf := h.payload_wf
  payload_range := h.payload_range
  out_wf := rfl
  out_filled a := by simp
  table_permutation _ := identityTable_isPermutation
  err_iff := by simp
  err_block := rfl
  cur_le _ := Nat.zero_le _
  cur_width := Nat.zero_le _
  olen_le := Nat.zero_le _

/-- A power-on reset reaches the invariant from any state (R125). -/
theorem powerOnReset (s : State) : Inv (powerOnReset s) where
  payload_wf := rfl
  payload_range := by simp
  out_wf := rfl
  out_filled a := by simp
  table_permutation _ := identityTable_isPermutation
  err_iff := by simp
  err_block := rfl
  cur_le _ := Nat.zero_le _
  cur_width := Nat.zero_le _
  olen_le := Nat.zero_le _

end Inv

/-- A write adds no address but its own. -/
theorem mem_memWrite {m : Memory} {a : Nat} {b : Byte} {c : Host.Cell} (h : c ∈ memWrite m a b) :
    c = (a, b) ∨ c ∈ m := by
  induction m with
  | nil => exact .inl (List.mem_singleton.mp h)
  | cons d m ih =>
    rw [memWrite] at h
    split at h
    · exact List.mem_cons.mp h
    · split at h
      · exact (List.mem_cons.mp h).imp_right (List.mem_cons_of_mem d)
      · obtain rfl | h := List.mem_cons.mp h
        · exact .inr List.mem_cons_self
        · exact (ih h).imp_right (List.mem_cons_of_mem d)

/-- A byte written to an address that exists (R24). -/
theorem Inv.payload {s : State} (h : Inv s) {a : Nat} (ha : a < Config.payloadCapacity) (b : Byte) :
    Inv { s with payload := memWrite s.payload a b } :=
  { h with
    payload_wf := memWrite_wf h.payload_wf a b
    payload_range := by
      intro c hc
      obtain rfl | hc := mem_memWrite hc
      · exact ha
      · exact h.payload_range c hc }

/-! ### Every step -/

theorem blockStep_keepsInv {s t : State} (h : Inv s) (hstep : blockStep s = .next t) : Inv t := by
  obtain ⟨-, heq⟩ | ⟨hbusy, -, heq⟩ | ⟨hbusy, -, heq⟩ := blockStep_cases s
  · cases heq.symm.trans hstep
    exact h
  · cases heq.symm.trans hstep
    exact h.done hbusy
  · obtain ⟨u, hp, hend⟩ | ⟨u, e, hp, hcode, hend⟩ := carryOut_fetch_outcome s
    · cases (heq.trans hend).symm.trans hstep
      exact h.of_progress hp
    · cases ((heq.trans hend).trans (raise_eq e u)).symm.trans hstep
      have hidle : u.status ≠ .idle := by rw [hp.keepsStatus.status, hbusy]; decide
      exact (h.of_progress hp).fault hidle hcode

theorem writeRegister_keepsInv {n v : Nat} {s t : State} (h : Inv s) (hstep : writeRegister n v s = .next t) : Inv t := by
  obtain ⟨t', heq, hcases⟩ | ⟨-, heq⟩ := writeRegister_cases n v s
  · cases heq.symm.trans hstep
    obtain rfl | ⟨hbusy, rfl | rfl | rfl⟩ := hcases
    · exact h
    · exact h.start
    · exact h.plen hbusy _
    · exact h.tlen _
  · cases heq.symm.trans hstep

theorem hostStep_keepsInv {m : HostMove} {s t : State} (h : Inv s) (hstep : hostStep m s = .next t) : Inv t := by
  cases m with
  | writeReg n v => exact writeRegister_keepsInv h hstep
  | readReg n =>
    obtain ⟨v, -, heq⟩ | ⟨-, heq⟩ := readRegister_cases n s
    · cases heq.symm.trans hstep
      exact h.hostFields _ v _
    · cases heq.symm.trans hstep
  | writePayload a b =>
    obtain ⟨-, heq⟩ | ⟨-, -, heq⟩ | ⟨ha, -, heq⟩ := writePayloadWindow_cases a b s
    · cases heq.symm.trans hstep
    · cases heq.symm.trans hstep
    · cases heq.symm.trans hstep
      exact h.payload ha b
  | readResult a =>
    obtain ⟨v, d, heq⟩ := readResultWindow_frame a s
    cases (congrArg Host.Outcome.next heq).symm.trans hstep
    exact h.hostFields _ v d
  | powerOn =>
    cases hstep
    exact .powerOnReset s
  | yield => exact blockStep_keepsInv h hstep

/-- Settles O43: a turn of the block is progress and perhaps a fault, and each host move changes one part of the
state. -/
theorem stepKeepsInvariant : Obligations.StepKeepsInvariant := by
  intro s t h hstep
  obtain ⟨-, heq⟩ | ⟨m, ms, -, heq⟩ := step_cases s
  · exact blockStep_keepsInv h (heq.symm.trans hstep)
  · exact hostStep_keepsInv (h.hostFields ms _ _) (heq.symm.trans hstep)

/-- Settles O42. -/
theorem resetMeetsInvariant : Obligations.ResetMeetsInvariant where
  payload_wf := rfl
  payload_range := by simp [State.reset]
  out_wf := rfl
  out_filled a := by simp [State.reset]
  table_permutation _ := identityTable_isPermutation
  err_iff := by decide
  err_block := rfl
  cur_le _ := Nat.zero_le _
  cur_width := Nat.zero_le _
  olen_le := Nat.zero_le _

/-- Settles O44: at most three bytes for each of at most `8 * 65535` bits. -/
theorem countersFitTheirRegisters : Obligations.CountersFitTheirRegisters := by
  intro s h
  have hcur := h.cur_width
  have holen := h.olen_le
  constructor <;> omega

/-- Settles O48: a turn that is not a token leaves all three alone, and a fault adds nothing to a token's progress. -/
theorem cursorAndOutputOnlyGrow : Obligations.CursorAndOutputOnlyGrow := by
  intro s t hstep
  obtain ⟨-, heq⟩ | ⟨-, -, heq⟩ | ⟨-, -, heq⟩ := blockStep_cases s
  · cases heq.symm.trans hstep
    exact ⟨le_rfl, le_rfl, fun _ _ => rfl⟩
  · cases heq.symm.trans hstep
    exact ⟨le_rfl, le_rfl, fun _ _ => rfl⟩
  · obtain ⟨u, hp, hend⟩ | ⟨u, e, hp, -, hend⟩ := carryOut_fetch_outcome s
    · cases (heq.trans hend).symm.trans hstep
      exact ⟨hp.cur_le, hp.olen_le, fun _ ha => hp.memRead_out ha⟩
    · cases ((heq.trans hend).trans (raise_eq e u)).symm.trans hstep
      exact ⟨hp.cur_le, hp.olen_le, fun _ ha => hp.memRead_out ha⟩

end Sys2Proof

/-! ## The copy class and the host do not see the table (R18) -/

namespace Sys2Proof.Machine

/-- The same state with another table. -/
def withTable (m : Table) (s : State) : State := { s with mtf := m }

/-- Change the next state of an answer. -/
def mapNext (f : State → State) : Result → Result
  | .next t => .next (f t)
  | .fault r => .fault r
  | .refused r => .refused r

theorem appendAll_withTable (m : Table) (data : List Byte) :
    ∀ s : State, appendAll data (withTable m s) = withTable m (appendAll data s) := by
  induction data with
  | nil => exact fun _ => rfl
  | cons b bs ih => exact fun s => ih (append b s)

theorem copyBytes_withTable (m : Table) (n offset : Nat) :
    ∀ s : State, copyBytes n offset (withTable m s) = withTable m (copyBytes n offset s) := by
  induction n with
  | zero => exact fun _ => rfl
  | succ n ih => exact fun s => ih (append (outByte s (s.olen - offset)) s)

theorem copyToken_withTable (m : Table) (header offset len : Nat) (s : State) :
    copyToken header offset len (withTable m s) = mapNext (withTable m) (copyToken header offset len s) := by
  have hbits : bitsRemain (copyBits header len) (withTable m s) = bitsRemain (copyBits header len) s := rfl
  have holen : (withTable m s).olen = s.olen := rfl
  unfold copyToken
  rw [hbits, holen]
  split
  · split
    · exact congrArg Host.Outcome.next (copyBytes_withTable m len offset (advance (copyBits header len) s))
    · rfl
  · rfl

theorem execRaw_withTable (m : Table) (data : List Byte) (s : State) :
    execRaw data (withTable m s) = mapNext (withTable m) (execRaw data s) := by
  have hbits : bitsRemain (rawBits data.length) (withTable m s) = bitsRemain (rawBits data.length) s := rfl
  have hleft : rawValuesLeft (withTable m s) = rawValuesLeft s := rfl
  have hexhaust : exhaust (withTable m s) = withTable m (exhaust s) := rfl
  unfold execRaw
  rw [hbits, hleft, hexhaust, appendAll_withTable]
  split
  · exact congrArg Host.Outcome.next (appendAll_withTable m data (advance (rawBits data.length) s))
  · rfl

/-- With another table before it, a copy or a `RAW` does the same and leaves that table there. -/
theorem exec_withTable {i : Instr} (hi : isCopyClass i = true) (m : Table) (s : State) :
    exec i (withTable m s) = mapNext (withTable m) (exec i s) := by
  cases i with
  | litU0 | litU1 | litU2 | litU3 | litU4 | litIll => cases hi
  | cpy5 o len => exact copyToken_withTable m 8 (copyOffset o.toNat) len s
  | raw data => exact execRaw_withTable m data s
  | cpy10 o len => exact copyToken_withTable m 13 (copyOffset o.toNat) len s
  | cpy15 o len => exact copyToken_withTable m 17 (copyOffset o.toNat) len s

theorem registerValue_withTable (n : Nat) (m : Table) (s : State) :
    registerValue n (withTable m s) = registerValue n s := by
  match n with
  | 0 | 1 | 2 | 3 | 4 | 5 | 6 => rfl
  | n + 7 => rfl

theorem readResultWindow_withTable (a : Nat) (m : Table) (s : State) :
    readResultWindow a (withTable m s) = withTable m (readResultWindow a s) := by
  have hstatus : (withTable m s).status = s.status := rfl
  have htlen : (withTable m s).tlen = s.tlen := rfl
  have holen : (withTable m s).olen = s.olen := rfl
  unfold readResultWindow
  rw [hstatus, htlen, holen]
  split <;> rfl

/-- Settles O40. That the table is not written is the case of `exec_withTable` in which the table put there is the one
that was there already. -/
theorem onlyLitTouchesTheTable : Obligations.OnlyLitTouchesTheTable := by
  refine ⟨fun i s t hi hexec => ?_, fun s m n a => ⟨registerValue_withTable n m s, readResultWindow_withTable a m s⟩⟩
  have hwith (m : Table) : exec i (withTable m s) = .next (withTable m t) := by
    rw [exec_withTable hi m s, hexec]; rfl
  have hsame : t = withTable s.mtf t := Host.Outcome.next.inj (hexec.symm.trans (hwith s.mtf))
  have hmtf : t.mtf = (withTable s.mtf t).mtf := congrArg State.mtf hsame
  exact ⟨hmtf, hwith⟩

/-! ## The host's moves, one by one (R23, R24, R124) -/

theorem step_of_hostMove {s : State} {m : HostMove} {ms : List HostMove} (h : s.hostMoves = m :: ms) :
    step s = hostStep m { s with hostMoves := ms } := by
  rw [step, turn, h]

/-! ### Register writes -/

theorem writeRegister_cmd_even {v : Nat} (hv : v % 2 = 0) (s : State) : writeRegister 0 v s = .next s := by
  have hodd : ¬ (v % 2 = 1 ∧ s.status ≠ .busy) := by omega
  rw [writeRegister, if_neg hodd]

theorem writeRegister_plen {s : State} (h : s.status ≠ .busy) (v : Nat) :
    writeRegister 3 v s = .next { s with plen := BitVec.ofNat 16 v } := by
  rw [writeRegister, if_neg h]

theorem writeRegister_tlen {s : State} (h : s.status ≠ .busy) (v : Nat) :
    writeRegister 4 v s = .next { s with tlen := BitVec.ofNat 16 v } := by
  rw [writeRegister, if_neg h]

theorem writeRegister_plen_busy {s : State} (h : s.status = .busy) (v : Nat) : writeRegister 3 v s = .next s := by
  rw [writeRegister, if_pos h]

theorem writeRegister_tlen_busy {s : State} (h : s.status = .busy) (v : Nat) : writeRegister 4 v s = .next s := by
  rw [writeRegister, if_pos h]

theorem writeRegister_of_gt {n : Nat} (hn : 6 < n) (v : Nat) (s : State) :
    writeRegister n v s = .fault (.noSuchRegister n) := by
  match n, hn with
  | n + 7, _ => rfl

/-- A length register keeps the low 16 bits of what is written (R23). -/
theorem ofNat_low_bits (v : Nat) : BitVec.ofNat 16 (v % 65536) = BitVec.ofNat 16 v := by
  apply BitVec.eq_of_toNat_eq
  simp only [BitVec.toNat_ofNat]
  omega

/-- Settles O5. -/
theorem lengthWritesKeepLowBits : Obligations.LengthWritesKeepLowBits := by
  intro s v ms
  rw [ofNat_low_bits]
  refine ⟨fun hm hidle => ?_, fun hm hidle => ?_, fun hm hbusy => ?_, fun hm hv => ?_⟩
  · exact (step_of_hostMove hm).trans (writeRegister_plen (s := { s with hostMoves := ms }) hidle v)
  · exact (step_of_hostMove hm).trans (writeRegister_tlen (s := { s with hostMoves := ms }) hidle v)
  · obtain hm | hm := hm
    · exact (step_of_hostMove hm).trans (writeRegister_plen_busy (s := { s with hostMoves := ms }) hbusy v)
    · exact (step_of_hostMove hm).trans (writeRegister_tlen_busy (s := { s with hostMoves := ms }) hbusy v)
  · exact (step_of_hostMove hm).trans (writeRegister_cmd_even hv _)

/-! ### Register reads -/

theorem registerValue_eq_none_iff (n : Nat) (s : State) : registerValue n s = none ↔ 6 < n := by
  match n with
  | 0 | 1 | 2 | 3 | 4 | 5 | 6 => simp [registerValue]
  | n + 7 => simp [registerValue]

theorem readRegister_of_value {n v : Nat} {s : State} (h : registerValue n s = some v) :
    readRegister n s = .next { s with readData := v } := by
  rw [readRegister, h]

theorem readRegister_of_gt {n : Nat} (hn : 6 < n) (s : State) : readRegister n s = .fault (.noSuchRegister n) := by
  rw [readRegister, (registerValue_eq_none_iff n s).mpr hn]

/-- Settles O6: `registerValue` is the map of the registers, and a read stores what it says and nothing else. -/
theorem registerReadsHaveNoSideEffect : Obligations.RegisterReadsHaveNoSideEffect := by
  intro s n ms hm hn
  obtain ⟨v, hv⟩ : ∃ v, registerValue n s = some v :=
    Option.ne_none_iff_exists'.mp fun hnone => absurd ((registerValue_eq_none_iff n s).mp hnone) (Nat.not_lt.mpr hn)
  have hstep : step s = .next { s with hostMoves := ms, readData := v } :=
    (step_of_hostMove hm).trans (readRegister_of_value (s := { s with hostMoves := ms }) hv)
  refine ⟨v, hstep, ?cmd, ?status, ?err, ?plen, ?tlen, ?cur, ?olen⟩ <;> (rintro rfl; cases hv)
  case status => cases s.status <;> rfl
  case err => cases s.err <;> rfl
  all_goals rfl

/-! ### Payload writes -/

theorem writePayloadWindow_of_le {a : Nat} (ha : a ≤ 65534) {s : State} (hidle : s.status ≠ .busy) (b : Byte) :
    writePayloadWindow a b s = .next { s with payload := memWrite s.payload a b } := by
  obtain ⟨hout, -⟩ | ⟨-, hbusy, -⟩ | ⟨-, -, heq⟩ := writePayloadWindow_cases a b s
  · omega
  · exact absurd hbusy hidle
  · exact heq

theorem writePayloadWindow_of_gt {a : Nat} (ha : 65534 < a) (b : Byte) (s : State) :
    writePayloadWindow a b s = .fault (.noSuchPayloadAddress a) := by
  obtain ⟨-, heq⟩ | ⟨hin, -⟩ | ⟨hin, -⟩ := writePayloadWindow_cases a b s
  · exact heq
  all_goals omega

theorem writePayloadWindow_busy {a : Nat} (ha : a ≤ 65534) {s : State} (hbusy : s.status = .busy) (b : Byte) :
    writePayloadWindow a b s = .refused (.payloadWriteWhileBusy a) := by
  obtain ⟨hout, -⟩ | ⟨-, -, heq⟩ | ⟨-, hidle, -⟩ := writePayloadWindow_cases a b s
  · omega
  · exact heq
  · exact absurd hbusy hidle

/-- Settles O8. -/
theorem payloadWriteLands : Obligations.PayloadWriteLands := by
  intro s a b ms hm ha hidle
  refine ⟨memWrite s.payload a b, ?_, memRead_memWrite_same _ a b, fun a' hne => memRead_memWrite_other hne _ b⟩
  exact (step_of_hostMove hm).trans (writePayloadWindow_of_le (s := { s with hostMoves := ms }) ha hidle b)

/-- Settles O9. -/
theorem meaninglessHostMovesStop : Obligations.MeaninglessHostMovesStop := by
  intro s n v a b ms
  refine ⟨fun hm hn => ?_, fun hm ha => ?_, fun hm ha hbusy => ?_⟩
  · obtain hm | hm := hm
    · exact (step_of_hostMove hm).trans (writeRegister_of_gt hn v _)
    · exact (step_of_hostMove hm).trans (readRegister_of_gt hn _)
  · exact (step_of_hostMove hm).trans (writePayloadWindow_of_gt ha b _)
  · exact (step_of_hostMove hm).trans (writePayloadWindow_busy (s := { s with hostMoves := ms }) ha hbusy b)

end Sys2Proof.Machine

/-! ## The inputs stay as they are while a decode runs (R43, R122) -/

namespace Sys2Proof

open Machine

theorem blockStep_keepsHostSide {s t : State} (hstep : blockStep s = .next t) : KeepsHostSide s t := by
  obtain ⟨-, heq⟩ | ⟨-, -, heq⟩ | ⟨-, -, heq⟩ := blockStep_cases s
  · cases heq.symm.trans hstep
    exact .refl s
  · cases heq.symm.trans hstep
    exact { KeepsHostSide.refl s with }
  · obtain ⟨u, hp, hend⟩ | ⟨u, e, hp, -, hend⟩ := carryOut_fetch_outcome s
    · cases (heq.trans hend).symm.trans hstep
      exact hp.keepsHostSide
    · cases ((heq.trans hend).trans (raise_eq e u)).symm.trans hstep
      exact { hp.keepsHostSide with }

/-- The inputs of a decode, as they are stored, are the same in both states (R14, R15, R20). -/
structure KeepsInputs (s t : State) : Prop where
  payload : t.payload = s.payload
  plen : t.plen = s.plen
  tlen : t.tlen = s.tlen

theorem KeepsHostSide.keepsInputs {s t : State} (h : KeepsHostSide s t) : KeepsInputs s t :=
  ⟨h.payload, h.plen, h.tlen⟩

theorem writeRegister_busy {n v : Nat} {s t : State} (hbusy : s.status = .busy)
    (hstep : writeRegister n v s = .next t) : t = s := by
  obtain ⟨t', heq, hsame | ⟨hidle, -⟩⟩ | ⟨-, heq⟩ := writeRegister_cases n v s
  · cases heq.symm.trans hstep
    exact hsame
  · exact absurd hbusy hidle
  · cases heq.symm.trans hstep

theorem hostStep_keepsInputs {m : HostMove} {s t : State} (hbusy : s.status = .busy) (hm : m ≠ .powerOn)
    (hstep : hostStep m s = .next t) : KeepsInputs s t := by
  cases m with
  | writeReg n v =>
    obtain rfl := writeRegister_busy hbusy hstep
    exact ⟨rfl, rfl, rfl⟩
  | readReg n =>
    obtain ⟨v, -, heq⟩ | ⟨-, heq⟩ := readRegister_cases n s
    · cases heq.symm.trans hstep
      exact ⟨rfl, rfl, rfl⟩
    · cases heq.symm.trans hstep
  | writePayload a b =>
    obtain ⟨-, heq⟩ | ⟨-, -, heq⟩ | ⟨-, hidle, -⟩ := writePayloadWindow_cases a b s
    · cases heq.symm.trans hstep
    · cases heq.symm.trans hstep
    · exact absurd hbusy hidle
  | readResult a =>
    obtain ⟨v, d, heq⟩ := readResultWindow_frame a s
    cases (congrArg Host.Outcome.next heq).symm.trans hstep
    exact ⟨rfl, rfl, rfl⟩
  | powerOn => exact absurd rfl hm
  | yield => exact (blockStep_keepsHostSide hstep).keepsInputs

/-- Settles O47: the block never writes its inputs, and while it is `BUSY` the host's writes to them are ignored or
refused. -/
theorem inputsAreConstantDuringDecode : Obligations.InputsAreConstantDuringDecode := by
  intro s t hbusy hhost hstep
  have hkeeps : KeepsInputs s t := by
    obtain ⟨-, heq⟩ | ⟨m, ms, hmoves, heq⟩ := step_cases s
    · exact (blockStep_keepsHostSide (heq.symm.trans hstep)).keepsInputs
    · have hm : m ≠ .powerOn := fun h => hhost ms (h ▸ hmoves)
      exact { hostStep_keepsInputs (s := { s with hostMoves := ms }) hbusy hm (heq.symm.trans hstep) with }
  exact ⟨hkeeps.payload, hkeeps.plen, hkeeps.tlen⟩

end Sys2Proof

/-! ## A field is a slice of the payload's number (R31, R32, R33) -/

namespace Sys2Proof

open Machine

theorem payloadNumber_lt (s : State) (n : Nat) : payloadNumber s n < 2 ^ (8 * n) := by
  induction n with
  | zero => exact Nat.one_pos
  | succ n ih =>
    have hbyte : (payloadByte s n).toNat + 1 ≤ 2 ^ 8 := (payloadByte s n).isLt
    calc payloadNumber s (n + 1)
        < 2 ^ (8 * n) + (payloadByte s n).toNat * 2 ^ (8 * n) := Nat.add_lt_add_right ih _
      _ = ((payloadByte s n).toNat + 1) * 2 ^ (8 * n) := by ring
      _ ≤ 2 ^ 8 * 2 ^ (8 * n) := Nat.mul_le_mul_right _ hbyte
      _ = 2 ^ (8 * (n + 1)) := by rw [← Nat.pow_add, Nat.mul_succ, Nat.add_comm]

/-- Bit `c` of the payload's number is stream bit `c` (R31). -/
theorem testBit_payloadNumber (s : State) {c n : Nat} (hc : c < 8 * n) :
    (payloadNumber s n).testBit c = payloadBit s c := by
  induction n with
  | zero => omega
  | succ n ih =>
    rw [payloadNumber, Nat.add_comm, Nat.mul_comm, Nat.testBit_two_pow_mul_add _ (payloadNumber_lt s n)]
    split
    · next hlow => exact ih hlow
    · next hhigh =>
      have hdiv : c / 8 = n := by omega
      have hmod : c % 8 = c - 8 * n := by omega
      rw [payloadBit, hdiv, hmod]
      rfl

/-- The low `k + 1` bits of a number are its lowest bit and, one place up, the low `k` bits of its half. -/
theorem mod_two_pow_succ_eq_or (x k : Nat) :
    x % 2 ^ (k + 1) = (x.testBit 0).toNat ||| (x >>> 1 % 2 ^ k) <<< 1 := by
  have hbit : (x.testBit 0).toNat = x % 2 := by rw [Nat.toNat_testBit, Nat.pow_zero, Nat.div_one]
  calc x % 2 ^ (k + 1)
      = 2 ^ 1 * (x >>> 1 % 2 ^ k) + x % 2 := by rw [Nat.pow_succ', Nat.mod_mul, Nat.add_comm]; rfl
    _ = 2 ^ 1 * (x >>> 1 % 2 ^ k) ||| (x.testBit 0).toNat := by
        rw [hbit, Nat.two_pow_add_eq_or_of_lt (Nat.mod_lt x Nat.two_pos)]
    _ = (x.testBit 0).toNat ||| (x >>> 1 % 2 ^ k) <<< 1 := by rw [Nat.or_comm, Nat.shiftLeft_eq, Nat.mul_comm]

theorem readBit_of_lt {s : State} (h : s.cur < 8 * s.plen.toNat) :
    readBit s = .ok (payloadBit s s.cur) { s with cur := s.cur + 1 } := by
  have hbyte : ¬ s.plen.toNat ≤ s.cur / 8 := by omega
  rw [readBit, if_neg hbyte]

/-- The loop of `read_bits`, for any number `S` whose bits are those of the stream (R72). -/
theorem readBitsLoop_eq (S k : Nat) :
    ∀ (i r : Nat) (s : State), (∀ c, c < 8 * s.plen.toNat → S.testBit c = payloadBit s c) →
      s.cur + k ≤ 8 * s.plen.toNat →
      readBitsLoop k i r s = .ok (r ||| (S >>> s.cur % 2 ^ k) <<< i) { s with cur := s.cur + k } := by
  induction k with
  | zero =>
    intro i r s _ _
    rw [Nat.pow_zero, Nat.mod_one, Nat.zero_shiftLeft, Nat.or_zero]
    rfl
  | succ k ih =>
    intro i r s hS hfit
    have hcur : s.cur < 8 * s.plen.toNat := by omega
    have hbit : (S >>> s.cur).testBit 0 = payloadBit s s.cur := by
      rw [Nat.testBit_shiftRight, Nat.add_zero, hS _ hcur]
    have hslice : r ||| (payloadBit s s.cur).toNat <<< i ||| (S >>> (s.cur + 1) % 2 ^ k) <<< (i + 1) =
        r ||| (S >>> s.cur % 2 ^ (k + 1)) <<< i := by
      rw [mod_two_pow_succ_eq_or, hbit, ← Nat.shiftRight_add, Nat.shiftLeft_or_distrib, ← Nat.shiftLeft_add,
        Nat.or_assoc, Nat.add_comm 1 i]
    rw [readBitsLoop, readBit_of_lt hcur, andThen_ok, ih _ _ { s with cur := s.cur + 1 } hS (by dsimp only; omega)]
    dsimp only
    rw [hslice, Nat.add_assoc, Nat.add_comm 1 k]

/-- Settles O12. -/
theorem fieldIsSliceOfPayloadNumber : Obligations.FieldIsSliceOfPayloadNumber := by
  intro s n hfit
  rw [readBits, readBitsLoop_eq _ n 0 0 s (fun c hc => testBit_payloadNumber s hc) hfit, Nat.shiftLeft_zero,
    Nat.zero_or]

end Sys2Proof

/-! ## The decoder reads no bit beyond the token (R62, R72) -/

namespace Sys2Proof

/-- The reader `p` reads the first `n` bits of `bs` and leaves `rest`; whatever bits stand after those `n`, it answers
`ans` of them. -/
def ReadsOnly {β : Type} (p ans : Bits → β) (n : Nat) (bs rest : Bits) : Prop :=
  ∃ used : Bits, used.length = n ∧ bs = used ++ rest ∧ ∀ more, p (used ++ more) = ans more

namespace ReadsOnly

variable {β γ δ : Type} {p ans : Bits → β} {q ans' : Bits → γ} {r ans'' : Bits → δ} {n n' m : Nat}
  {bs mid rest : Bits}

/-- A reader that asks for no more than the bits `used`. -/
theorem bits (used : Bits) (hlen : used.length = n) (hp : ∀ more, p (used ++ more) = ans more) :
    ReadsOnly p ans n (used ++ rest) rest :=
  ⟨used, hlen, rfl, hp⟩

/-- A reader that reads the bits `first` and then goes on as `p`. -/
theorem after (h : ReadsOnly p ans n bs rest) (first : Bits) (hlen : first.length + n = m)
    (hq : ∀ bs rest, p bs = ans rest → q (first ++ bs) = ans' rest) : ReadsOnly q ans' m (first ++ bs) rest := by
  obtain ⟨used, rfl, rfl, hp⟩ := h
  refine ⟨first ++ used, by rw [List.length_append, hlen], (List.append_assoc ..).symm, fun more => ?_⟩
  rw [List.append_assoc]
  exact hq _ _ (hp more)

/-- A reader whose answer is made of `p`'s. -/
theorem imp (h : ReadsOnly p ans n bs rest) (hq : ∀ bs rest, p bs = ans rest → q bs = ans' rest) :
    ReadsOnly q ans' n bs rest :=
  h.after [] (Nat.zero_add n) hq

/-- A reader that reads as `p` and then as `q`. -/
theorem andThen (h : ReadsOnly p ans n bs mid) (h' : ReadsOnly q ans' n' mid rest) (hlen : n + n' = m)
    (hr : ∀ bs mid rest, p bs = ans mid → q mid = ans' rest → r bs = ans'' rest) : ReadsOnly r ans'' m bs rest := by
  obtain ⟨used, rfl, rfl, hp⟩ := h
  exact h'.after used hlen fun bs rest hq => hr _ _ _ (hp bs) hq

end ReadsOnly

/-! ### Fields -/

theorem bitsToNat_lt (bs : Bits) : bitsToNat bs < 2 ^ bs.length := by
  induction bs with
  | nil => exact Nat.one_pos
  | cons b bs ih =>
    have hb := b.toNat_le
    rw [bitsToNat, List.length_cons, Nat.pow_succ]
    omega

theorem takeField_readsOnly {n : Nat} : ∀ {bs rest : Bits} {v : Nat}, takeField n bs = some (v, rest) →
    ReadsOnly (takeField n) (fun more => some (v, more)) n bs rest := by
  induction n with
  | zero =>
    intro bs rest v h
    cases h
    exact .bits [] rfl fun _ => rfl
  | succ n ih =>
    intro bs rest v h
    cases bs with
    | nil => cases h
    | cons b bs =>
      obtain ⟨⟨w, rest'⟩, hfield, heq⟩ := Option.map_eq_some_iff.mp h
      cases heq
      exact (ih hfield).after [b] (Nat.add_comm 1 n) fun _ _ hbs => congrArg (Option.map _) hbs

theorem takeUnary_readsOnly : ∀ {bs rest : Bits} {u : Nat}, takeUnary bs = some (u, rest) →
    ReadsOnly takeUnary (fun more => some (u, more)) (u + 1) bs rest
  | false :: bs, rest, u, h => by
    cases h
    exact .bits [false] rfl fun _ => rfl
  | true :: bs, rest, u, h => by
    obtain ⟨⟨u', rest'⟩, hones, heq⟩ := Option.map_eq_some_iff.mp h
    cases heq
    exact (takeUnary_readsOnly hones).after [true] (Nat.add_comm 1 _) fun _ _ hbs => congrArg (Option.map _) hbs

/-- A length of at least 3, and three bits for each of its groups (R55, R58). -/
theorem takeLength_readsOnly {bs rest : Bits} {len : Nat} (h : takeLength bs = some (len, rest)) :
    3 ≤ len ∧ ReadsOnly takeLength (fun more => some (len, more)) (3 * groupCount len) bs rest := by
  induction bs using takeLength.induct generalizing len with
  | case1 b0 b1 b2 bs hseven ih =>
    rw [takeLength, if_pos hseven] at h
    obtain ⟨⟨len', rest'⟩, hgroups, heq⟩ := Option.map_eq_some_iff.mp h
    cases heq
    obtain ⟨hle, hreads⟩ := ih hgroups
    have hcount : 3 + 3 * groupCount len' = 3 * groupCount (Config.lenContinue + len') := by
      simp only [groupCount, Config.lenBase, Config.lenContinue]
      omega
    refine ⟨by omega, hreads.after [b0, b1, b2] hcount fun bs rest hbs => ?_⟩
    show takeLength (b0 :: b1 :: b2 :: bs) = _
    rw [takeLength, if_pos hseven, hbs]
    rfl
  | case2 b0 b1 b2 bs hlast =>
    rw [takeLength, if_neg hlast] at h
    cases h
    have hlt : bitsToNat [b0, b1, b2] < 8 := bitsToNat_lt [b0, b1, b2]
    have hcount : 3 = 3 * groupCount (Config.lenBase + bitsToNat [b0, b1, b2]) := by
      simp only [groupCount, Config.lenBase, Config.lenContinue] at hlast ⊢
      omega
    refine ⟨Nat.le_add_right _ _, .bits [b0, b1, b2] hcount fun more => ?_⟩
    show takeLength (b0 :: b1 :: b2 :: more) = _
    rw [takeLength, if_neg hlast]
  | case3 bs hshort => simp [takeLength] at h

/-- Eight bits for each data byte and for the zero byte that ends the run (R56). -/
theorem takeRawBody_readsOnly {bs rest : Bits} {data : List Byte} (h : takeRawBody bs = (data, some rest)) :
    ReadsOnly takeRawBody (fun more => (data, some more)) (8 * data.length + 8) bs rest := by
  induction bs using takeRawBody.induct generalizing data with
  | case1 b0 b1 b2 b3 b4 b5 b6 b7 bs hzero =>
    rw [takeRawBody, if_pos hzero] at h
    cases h
    refine .bits [b0, b1, b2, b3, b4, b5, b6, b7] rfl fun more => ?_
    show takeRawBody (b0 :: b1 :: b2 :: b3 :: b4 :: b5 :: b6 :: b7 :: more) = _
    rw [takeRawBody, if_pos hzero]
  | case2 b0 b1 b2 b3 b4 b5 b6 b7 bs hvalue ih =>
    rw [takeRawBody, if_neg hvalue] at h
    obtain ⟨rfl, hrest⟩ := Prod.mk.inj h
    refine (ih (Prod.ext rfl hrest)).after [b0, b1, b2, b3, b4, b5, b6, b7] (Nat.add_comm 8 _) fun bs rest hbs => ?_
    show takeRawBody (b0 :: b1 :: b2 :: b3 :: b4 :: b5 :: b6 :: b7 :: bs) = _
    rw [takeRawBody, if_neg hvalue, hbs]
  | case3 bs hshort => simp [takeRawBody] at h

/-! ### Tokens -/

theorem tokenBits_litOfFields (u l : Nat) : tokenBits (litOfFields u l) = litBits u := by
  match u with
  | 0 | 1 | 2 | 3 | 4 => rfl
  | u + 5 => rfl

theorem decodeLit_eq_token_iff {bs rest : Bits} {i : Instr} : decodeLit bs = .token i rest ↔
    ∃ u mid l, takeUnary bs = some (u, mid) ∧ takeField (4 + u) mid = some (l, rest) ∧ i = litOfFields u l := by
  unfold decodeLit Config.litBaseWidth
  constructor
  · intro h
    split at h
    · cases h
    · next u mid hones =>
      split at h
      · cases h
      · next l rest' hfield =>
        cases h
        exact ⟨u, mid, l, hones, hfield, rfl⟩
  · rintro ⟨u, mid, l, hones, hfield, rfl⟩
    simp only [hones, hfield]

theorem decodeCopyLength_eq_token_iff {mk : Nat → Instr} {bs rest : Bits} {i : Instr} :
    decodeCopyLength mk bs = .token i rest ↔ ∃ len, takeLength bs = some (len, rest) ∧ i = mk len := by
  unfold decodeCopyLength
  constructor
  · intro h
    split at h
    · cases h
    · next len rest' hlen =>
      cases h
      exact ⟨len, hlen, rfl⟩
  · rintro ⟨len, hlen, rfl⟩
    simp only [hlen]

theorem decodeRaw_eq_token_iff {bs rest : Bits} {i : Instr} :
    decodeRaw bs = .token i rest ↔ ∃ data, takeRawBody bs = (data, some rest) ∧ i = .raw data := by
  unfold decodeRaw
  constructor
  · intro h
    split at h
    · cases h
    · next data rest' hbody =>
      cases h
      exact ⟨data, hbody, rfl⟩
  · rintro ⟨data, hbody, rfl⟩
    simp only [hbody]

theorem decodeOffset_of_raw {w o : Nat} {mk : Nat → Nat → Instr} {bs mid : Bits}
    (hfield : takeField w bs = some (o, mid)) (hraw : w = 10 ∧ o = 0) : decodeOffset w mk bs = decodeRaw mid := by
  simp only [decodeOffset, hfield, if_pos hraw]

theorem decodeOffset_of_copy {w o : Nat} {mk : Nat → Nat → Instr} {bs mid : Bits}
    (hfield : takeField w bs = some (o, mid)) (hraw : ¬ (w = 10 ∧ o = 0)) :
    decodeOffset w mk bs = decodeCopyLength (mk o) mid := by
  simp only [decodeOffset, hfield, if_neg hraw]

theorem takeField_of_decodeOffset {w : Nat} {mk : Nat → Nat → Instr} {bs rest : Bits} {i : Instr}
    (h : decodeOffset w mk bs = .token i rest) : ∃ o mid, takeField w bs = some (o, mid) := by
  cases hfield : takeField w bs with
  | none => simp only [decodeOffset, hfield] at h; cases h
  | some r => exact ⟨r.1, r.2, rfl⟩

theorem decodeLit_readsOnly {bs rest : Bits} {i : Instr} (h : decodeLit bs = .token i rest) :
    ∃ n, 1 + n = tokenBits i ∧ ReadsOnly decodeLit (.token i) n bs rest := by
  obtain ⟨u, mid, l, hones, hfield, rfl⟩ := decodeLit_eq_token_iff.mp h
  have hbits : 1 + (u + 1 + (4 + u)) = tokenBits (litOfFields u l) := by
    rw [tokenBits_litOfFields, litBits]
    omega
  exact ⟨_, hbits, (takeUnary_readsOnly hones).andThen (takeField_readsOnly hfield) rfl
    fun _ mid _ hones hfield => decodeLit_eq_token_iff.mpr ⟨u, mid, l, hones, hfield, rfl⟩⟩

/-- The offset field and what follows it, after the `k` bits of the control bit and the width probe (R53). -/
theorem decodeOffset_readsOnly {k w : Nat} {mk : Nat → Nat → Instr} (hk : w = 10 → k = 3)
    (hmk : ∀ o len, tokenBits (mk o len) = copyBits (k + w) len) {bs rest : Bits} {i : Instr}
    (h : decodeOffset w mk bs = .token i rest) :
    ∃ n, k + n = tokenBits i ∧ ReadsOnly (decodeOffset w mk) (.token i) n bs rest := by
  obtain ⟨o, mid, hfield⟩ := takeField_of_decodeOffset h
  by_cases hraw : w = 10 ∧ o = 0
  · rw [decodeOffset_of_raw hfield hraw] at h
    obtain ⟨data, hbody, rfl⟩ := decodeRaw_eq_token_iff.mp h
    have hbits : k + (w + (8 * data.length + 8)) = tokenBits (.raw data) := by
      rw [hk hraw.1, hraw.1, tokenBits, rawBits]
      omega
    exact ⟨_, hbits, (takeField_readsOnly hfield).andThen (takeRawBody_readsOnly hbody) rfl
      fun _ _ _ hfield hbody =>
        (decodeOffset_of_raw hfield hraw).trans (decodeRaw_eq_token_iff.mpr ⟨data, hbody, rfl⟩)⟩
  · rw [decodeOffset_of_copy hfield hraw] at h
    obtain ⟨len, hlen, rfl⟩ := decodeCopyLength_eq_token_iff.mp h
    have hbits : k + (w + 3 * groupCount len) = tokenBits (mk o len) := by
      rw [hmk, copyBits, Nat.add_assoc]
    exact ⟨_, hbits, (takeField_readsOnly hfield).andThen (takeLength_readsOnly hlen).2 rfl
      fun _ _ _ hfield hlen =>
        (decodeOffset_of_copy hfield hraw).trans (decodeCopyLength_eq_token_iff.mpr ⟨len, hlen, rfl⟩)⟩

/-- A complete token is told by its own bits alone, `tokenBits` of them (R62). -/
theorem decode_readsOnly {bs rest : Bits} {i : Instr} (h : decode bs = .token i rest) :
    ReadsOnly decode (.token i) (tokenBits i) bs rest := by
  match bs, h with
  | true :: bs, h =>
    obtain ⟨n, hbits, hreads⟩ := decodeLit_readsOnly h
    exact hreads.after [true] hbits fun _ _ hbs => hbs
  | false :: true :: true :: bs, h =>
    obtain ⟨n, hbits, hreads⟩ := decodeOffset_readsOnly (k := 3) (by decide) (fun _ _ => rfl) h
    exact hreads.after [false, true, true] hbits fun _ _ hbs => hbs
  | false :: true :: false :: bs, h =>
    obtain ⟨n, hbits, hreads⟩ := decodeOffset_readsOnly (k := 3) (by decide) (fun _ _ => rfl) h
    exact hreads.after [false, true, false] hbits fun _ _ hbs => hbs
  | false :: false :: bs, h =>
    obtain ⟨n, hbits, hreads⟩ := decodeOffset_readsOnly (k := 2) (by decide) (fun _ _ => rfl) h
    exact hreads.after [false, false] hbits fun _ _ hbs => hbs

end Sys2Proof

/-! ## Payload bits that a decode does not reach (R44)

The two decodes may differ in the host's side as well as in the payload. `DecodeIsFunctionOfInputs` takes care of the
host's side: it leaves the one state with another payload put in (`withPayload`), and with that a decode whose bits
reached are the same commutes, turn by turn. -/

namespace Sys2Proof.Machine

/-- The same state with another payload and `PLEN`. -/
def withPayload (p : Memory) (n : BitVec 16) (s : State) : State := { s with payload := p, plen := n }

theorem appendAll_withPayload (p : Memory) (n : BitVec 16) (data : List Byte) :
    ∀ s : State, appendAll data (withPayload p n s) = withPayload p n (appendAll data s) := by
  induction data with
  | nil => exact fun _ => rfl
  | cons b bs ih => exact fun s => ih (append b s)

theorem copyBytes_withPayload (p : Memory) (n : BitVec 16) (len offset : Nat) :
    ∀ s : State, copyBytes len offset (withPayload p n s) = withPayload p n (copyBytes len offset s) := by
  induction len with
  | zero => exact fun _ => rfl
  | succ len ih => exact fun s => ih (append (outByte s (s.olen - offset)) s)

/-- If `f` answers `s` without a fault it has read `bits` bits, and it answers alike with any payload that holds as
many. -/
def CompletesAlike (bits : Nat) (f : State → Result) (s : State) : Prop :=
  ∀ t, f s = .next t → t.status ≠ .error →
    t.cur = s.cur + bits ∧ ∀ (p : Memory) (n : BitVec 16), s.cur + bits ≤ 8 * n.toNat →
      f (withPayload p n s) = .next (withPayload p n t)

theorem bitsRemain_withPayload {bits : Nat} {p : Memory} {n : BitVec 16} {s : State}
    (h : s.cur + bits ≤ 8 * n.toNat) : bitsRemain bits (withPayload p n s) = true :=
  decide_eq_true h

/-- A fault's answer has `STATUS` `ERROR` (R136). -/
theorem status_of_raise {e : Err} {s t : State} (h : raise e s = .next t) : t.status = .error := by
  cases h
  rfl

theorem litToken_completesAlike (u l : Nat) (s : State) : CompletesAlike (litBits u) (litToken u l) s := by
  intro t hexec hok
  obtain ⟨-, hidx, heq⟩ | ⟨-, -, heq⟩ | ⟨-, heq⟩ := litToken_cases u l s
  · cases heq.symm.trans hexec
    refine ⟨rfl, fun p n hfit => ?_⟩
    rw [litToken, if_pos (bitsRemain_withPayload hfit), dif_pos (show litIndex u l < Config.tableSize from hidx)]
    rfl
  all_goals exact absurd (status_of_raise (heq.symm.trans hexec)) hok

theorem copyToken_completesAlike (header offset len : Nat) (s : State) :
    CompletesAlike (copyBits header len) (copyToken header offset len) s := by
  intro t hexec hok
  obtain ⟨-, hoff, heq⟩ | ⟨-, -, heq⟩ | ⟨-, heq⟩ := copyToken_cases header offset len s
  · cases heq.symm.trans hexec
    refine ⟨copyBytes_cur len offset _, fun p n hfit => ?_⟩
    have holen : offset ≤ (withPayload p n s).olen := hoff
    rw [copyToken, if_pos (bitsRemain_withPayload hfit), if_pos holen]
    exact congrArg Host.Outcome.next (copyBytes_withPayload p n len offset (advance (copyBits header len) s))
  all_goals exact absurd (status_of_raise (heq.symm.trans hexec)) hok

theorem execRaw_completesAlike (data : List Byte) (s : State) :
    CompletesAlike (rawBits data.length) (execRaw data) s := by
  intro t hexec hok
  obtain ⟨-, heq⟩ | ⟨-, heq⟩ := execRaw_cases data s
  · cases heq.symm.trans hexec
    refine ⟨appendAll_cur data _, fun p n hfit => ?_⟩
    rw [execRaw, if_pos (bitsRemain_withPayload hfit)]
    exact congrArg Host.Outcome.next (appendAll_withPayload p n data (advance (rawBits data.length) s))
  · exact absurd (status_of_raise (heq.symm.trans hexec)) hok

theorem exec_completesAlike (i : Instr) (s : State) : CompletesAlike (tokenBits i) (exec i) s := by
  cases i with
  | litU0 l => exact litToken_completesAlike 0 l.toNat s
  | litU1 l => exact litToken_completesAlike 1 l.toNat s
  | litU2 l => exact litToken_completesAlike 2 l.toNat s
  | litU3 l => exact litToken_completesAlike 3 l.toNat s
  | litU4 l => exact litToken_completesAlike 4 l.toNat s
  | litIll u l => exact litToken_completesAlike u l s
  | cpy5 o len => exact copyToken_completesAlike 8 (copyOffset o.toNat) len s
  | raw data => exact execRaw_completesAlike data s
  | cpy10 o len => exact copyToken_completesAlike 13 (copyOffset o.toNat) len s
  | cpy15 o len => exact copyToken_completesAlike 17 (copyOffset o.toNat) len s

/-! ### One turn -/

/-- The first `m` bits at the cursor, where both payloads hold them and they are the same. -/
theorem take_streamBits_congr {s t : State} {m : Nat} (hcur : t.cur = s.cur) (hs : m ≤ bitsLeft s) (ht : m ≤ bitsLeft t)
    (hbits : ∀ c, c < s.cur + m → payloadBit t c = payloadBit s c) :
    (streamBits t).take m = (streamBits s).take m := by
  rw [streamBits, streamBits, ← List.map_take, ← List.map_take, List.take_range, List.take_range, Nat.min_eq_left hs,
    Nat.min_eq_left ht, hcur]
  exact List.map_congr_left fun j hj => hbits _ (Nat.add_lt_add_left (List.mem_range.mp hj) _)

/-- A payload that holds the bits of the token at the cursor spells the same token there. -/
theorem fetch_withPayload {s : State} {p : Memory} {n : BitVec 16} {i : Instr} {rest : Bits}
    (hfetch : fetch s = .token i rest) (hfit : s.cur + tokenBits i ≤ 8 * n.toNat)
    (hbits : ∀ c, c < s.cur + tokenBits i → payloadBit (withPayload p n s) c = payloadBit s c) :
    ∃ rest', fetch (withPayload p n s) = .token i rest' := by
  obtain ⟨used, hlen, hstream, hdecode⟩ := decode_readsOnly hfetch
  have hs : tokenBits i ≤ bitsLeft s := by
    rw [← length_streamBits, hstream, List.length_append, hlen]
    exact Nat.le_add_right _ _
  have ht : tokenBits i ≤ bitsLeft (withPayload p n s) := Nat.le_sub_of_add_le' hfit
  have htake : (streamBits (withPayload p n s)).take (tokenBits i) = used := by
    rw [take_streamBits_congr (s := s) (t := withPayload p n s) rfl hs ht hbits, hstream, ← hlen, List.take_left]
  refine ⟨(streamBits (withPayload p n s)).drop (tokenBits i), ?_⟩
  rw [fetch, ← hdecode, ← htake, List.take_append_drop]

/-- A turn that takes no fault depends on the payload up to the cursor it reaches. -/
theorem blockStep_withPayload {s t : State} {p : Memory} {n : BitVec 16} (hstep : blockStep s = .next t)
    (hok : t.status ≠ .error) (hfit : t.cur ≤ 8 * n.toNat)
    (hbits : ∀ c, c < t.cur → payloadBit (withPayload p n s) c = payloadBit s c) :
    blockStep (withPayload p n s) = .next (withPayload p n t) := by
  have hstatus : (withPayload p n s).status = s.status := rfl
  have htest : (withPayload p n s).olen = (withPayload p n s).tlen.toNat ↔ s.olen = s.tlen.toNat := Iff.rfl
  obtain ⟨hidle, heq⟩ | ⟨hbusy, hlast, heq⟩ | ⟨hbusy, hlast, heq⟩ := blockStep_cases s
  · cases heq.symm.trans hstep
    rw [blockStep, hstatus, if_neg hidle]
  · cases heq.symm.trans hstep
    rw [blockStep, hstatus, if_pos hbusy, if_pos (htest.mpr hlast)]
    rfl
  · have hcarry := heq.symm.trans hstep
    rw [blockStep, hstatus, if_pos hbusy, if_neg (mt htest.mp hlast)]
    cases hfetch : fetch s with
    | token i rest =>
      rw [hfetch] at hcarry
      obtain ⟨hcur, halike⟩ := exec_completesAlike i s t hcarry hok
      rw [hcur] at hfit hbits
      obtain ⟨rest', hfetch'⟩ := fetch_withPayload hfetch hfit hbits
      rw [hfetch']
      exact halike p n hfit
    | truncated data =>
      rw [hfetch] at hcarry
      exact absurd (status_of_raise hcarry) hok

/-! ### The whole run -/

/-- The block has an answer to every turn. -/
theorem exists_blockStep_eq_next (s : State) : ∃ t, blockStep s = .next t := by
  obtain ⟨-, heq⟩ | ⟨-, -, heq⟩ | ⟨-, -, heq⟩ := blockStep_cases s
  · exact ⟨_, heq⟩
  · exact ⟨_, heq⟩
  · obtain ⟨u, -, hend⟩ | ⟨u, e, -, -, hend⟩ := carryOut_fetch_outcome s
    · exact ⟨_, heq.trans hend⟩
    · exact ⟨_, heq.trans hend⟩

theorem runBlock_of_not_busy {s : State} (h : s.status ≠ .busy) (k : Nat) : runBlock k s = s := by
  have hstep : blockStep s = .next s := if_neg h
  induction k with
  | zero => rfl
  | succ k ih => rw [runBlock_succ_of_next hstep, ih]

theorem cur_le_runBlock (k : Nat) : ∀ s : State, s.cur ≤ (runBlock k s).cur := by
  induction k with
  | zero => exact fun s => le_rfl
  | succ k ih =>
    intro s
    obtain ⟨t, hstep⟩ := exists_blockStep_eq_next s
    obtain ⟨hcur, -, -⟩ := cursorAndOutputOnlyGrow s t hstep
    rw [runBlock_succ_of_next hstep]
    exact hcur.trans (ih t)

/-- A stream bit depends on the payload and on the free values of its unwritten bytes (R28, R31). -/
theorem payloadBit_congr {s t : State} (hpayload : t.payload = s.payload) (hfree : t.powerOns = s.powerOns) (c : Nat) :
    payloadBit t c = payloadBit s c := by
  rw [payloadBit, payloadBit, payloadByte, payloadByte, hpayload, hfree]

theorem runBlock_withPayload {p : Memory} {n : BitVec 16} (k : Nat) : ∀ {s : State},
    (runBlock k s).status = .done → (runBlock k s).cur ≤ 8 * n.toNat →
    (∀ c, c < (runBlock k s).cur → payloadBit (withPayload p n s) c = payloadBit s c) →
    runBlock k (withPayload p n s) = withPayload p n (runBlock k s) := by
  induction k with
  | zero => exact fun _ _ _ => rfl
  | succ k ih =>
    intro s hdone hfit hbits
    obtain ⟨t, hstep⟩ := exists_blockStep_eq_next s
    rw [runBlock_succ_of_next hstep] at hdone hfit hbits ⊢
    have hok : t.status ≠ .error := by
      intro herr
      rw [runBlock_of_not_busy (by rw [herr]; decide) k, herr] at hdone
      cases hdone
    have hcur : t.cur ≤ (runBlock k t).cur := cur_le_runBlock k t
    have hturn := blockStep_withPayload hstep hok (hcur.trans hfit) fun c hc => hbits c (hc.trans_le hcur)
    have hkeeps := blockStep_keepsHostSide hstep
    have hbits' : ∀ c, c < (runBlock k t).cur → payloadBit (withPayload p n t) c = payloadBit t c := by
      intro c hc
      calc payloadBit (withPayload p n t) c
          = payloadBit (withPayload p n s) c :=
            payloadBit_congr (s := withPayload p n s) (t := withPayload p n t) rfl hkeeps.powerOns c
        _ = payloadBit s c := hbits c hc
        _ = payloadBit t c := (payloadBit_congr hkeeps.payload hkeeps.powerOns c).symm
    rw [runBlock_succ_of_next hturn, ih hdone hfit hbits']

/-! ### Any other state -/

/-- The payload of `t` with every byte below `PLEN` written out, so that no free value is left among them. -/
def payloadWritten (t : State) : Memory := storeBytes 0 ((List.range t.plen.toNat).map (payloadByte t)) []

theorem payloadByte_payloadWritten (s t : State) {a : Nat} (ha : a < t.plen.toNat) :
    payloadByte (withPayload (payloadWritten t) t.plen s) a = payloadByte t a := by
  have hread := memRead_storeBytes ((List.range t.plen.toNat).map (payloadByte t)) [] 0 (j := a) (by simpa using ha)
  rw [Nat.zero_add, List.getElem?_map, List.getElem?_range ha, Option.map_some] at hread
  rw [payloadByte, withPayload, payloadWritten, hread, Option.getD_some]

theorem sameInputs_payloadWritten {s t : State} (htlen : t.tlen = s.tlen) :
    sameInputs t (withPayload (payloadWritten t) t.plen s) :=
  ⟨rfl, htlen, fun _ ha => (payloadByte_payloadWritten s t ha).symm⟩

/-- Settles O52: the decode from `t` is the decode from `s` with `t`'s payload put in, which is the decode from `s` up
to that payload. -/
theorem unreachedBitsDoNotMatter : Obligations.UnreachedBitsDoNotMatter := by
  intro s t k hdone htlen hbits hfit
  have hsame : ∀ c, c < (runBlock k (start s)).cur →
      payloadBit (withPayload (payloadWritten t) t.plen (start s)) c = payloadBit (start s) c := by
    intro c hc
    have hbyte : c / 8 < t.plen.toNat := Nat.div_lt_of_lt_mul (hc.trans_le hfit)
    calc payloadBit (withPayload (payloadWritten t) t.plen (start s)) c
        = payloadBit t c := by rw [payloadBit, payloadBit, payloadByte_payloadWritten _ _ hbyte]
      _ = payloadBit s c := hbits c hc
  calc decodeView (runBlock k (start t))
      = decodeView (runBlock k (start (withPayload (payloadWritten t) t.plen s))) :=
        decodeIsFunctionOfInputs _ _ (sameInputs_payloadWritten htlen) k
    _ = decodeView (withPayload (payloadWritten t) t.plen (runBlock k (start s))) :=
        congrArg decodeView (runBlock_withPayload k hdone hfit hsame)
    _ = decodeView (runBlock k (start s)) := rfl

end Sys2Proof.Machine

/-! ## The spelling of each part of a token (R31, R32, R52, R55, R56)

Each reader of the decoder answers exactly on the strings that the encoder's spelling of its part begins. Both round
trips are put together from these equivalences. -/

namespace Sys2Proof

/-! ### Fields -/

theorem bitsToNat_fieldBits {n v : Nat} (h : v < 2 ^ n) : bitsToNat (fieldBits n v) = v := by
  induction n generalizing v with
  | zero => rw [Nat.lt_one_iff.mp h]; rfl
  | succ n ih =>
    have hhalf : v / 2 < 2 ^ n := by rw [Nat.pow_succ] at h; omega
    have hlow : (v % 2 == 1).toNat = v % 2 := by
      obtain h | h := Nat.mod_two_eq_zero_or_one v <;> rw [h] <;> rfl
    rw [fieldBits, bitsToNat, ih hhalf, hlow, Nat.mod_add_div]

theorem fieldBits_bitsToNat (bs : Bits) : fieldBits bs.length (bitsToNat bs) = bs := by
  induction bs with
  | nil => rfl
  | cons b bs ih =>
    have hlow : (b.toNat + 2 * bitsToNat bs) % 2 = b.toNat := by have := b.toNat_le; omega
    have hhigh : (b.toNat + 2 * bitsToNat bs) / 2 = bitsToNat bs := by have := b.toNat_le; omega
    rw [List.length_cons, fieldBits, bitsToNat, hlow, hhigh, ih]
    cases b <;> rfl

/-- A field of `n` bits has one spelling for each value below `2^n`. -/
theorem bitsToNat_eq_iff {n v : Nat} (hv : v < 2 ^ n) {bs : Bits} (hlen : bs.length = n) :
    bitsToNat bs = v ↔ bs = fieldBits n v := by
  constructor
  · rintro rfl
    rw [← hlen, fieldBits_bitsToNat]
  · rintro rfl
    exact bitsToNat_fieldBits hv

theorem takeField_append (used rest : Bits) : takeField used.length (used ++ rest) = some (bitsToNat used, rest) := by
  induction used with
  | nil => rfl
  | cons b used ih => simp only [List.length_cons, List.cons_append, takeField, ih, Option.map_some, bitsToNat]

theorem takeField_eq_some_iff {n v : Nat} {bs rest : Bits} :
    takeField n bs = some (v, rest) ↔ v < 2 ^ n ∧ bs = fieldBits n v ++ rest := by
  constructor
  · intro h
    obtain ⟨used, rfl, rfl, -⟩ := takeField_readsOnly h
    obtain ⟨rfl, -⟩ := Prod.mk.inj (Option.some.inj ((takeField_append used rest).symm.trans h))
    exact ⟨bitsToNat_lt used, by rw [fieldBits_bitsToNat]⟩
  · rintro ⟨hv, rfl⟩
    have h := takeField_append (fieldBits n v) rest
    rwa [length_fieldBits, bitsToNat_fieldBits hv] at h

/-! ### The unary count -/

theorem takeUnary_eq_some_iff {u : Nat} {bs rest : Bits} :
    takeUnary bs = some (u, rest) ↔ bs = List.replicate u true ++ false :: rest := by
  induction bs generalizing u with
  | nil => cases u <;> simp [takeUnary, List.replicate_succ]
  | cons b bs ih =>
    cases b with
    | false => cases u <;> simp [takeUnary, List.replicate_succ, eq_comm]
    | true =>
      cases u with
      | zero => simp [takeUnary]
      | succ u => simp [takeUnary, List.replicate_succ, Option.map_eq_some_iff, ih]

/-! ### The length groups -/

/-- A group of 7 and the spelling of the length that is left (R58). -/
theorem encodeLength_continue {len : Nat} (h : 3 ≤ len) :
    encodeLength (7 + len) = fieldBits 3 7 ++ encodeLength len := by
  have hdiv : 3 * ((7 + len - 3) / 7) = 3 + 3 * ((len - 3) / 7) := by omega
  have hmod : (7 + len - 3) % 7 = (len - 3) % 7 := by omega
  rw [encodeLength, encodeLength, Config.lenBase, hdiv, hmod, List.replicate_add, List.append_assoc]
  rfl

/-- One group other than 7 ends the length (R55). -/
theorem encodeLength_last {g : Nat} (h : g < 7) : encodeLength (3 + g) = fieldBits 3 g := by
  have hdiv : (3 + g - 3) / 7 = 0 := by omega
  have hmod : (3 + g - 3) % 7 = g := by omega
  rw [encodeLength, Config.lenBase, hdiv, hmod]
  rfl

theorem takeLength_continue (bs : Bits) :
    takeLength (fieldBits 3 7 ++ bs) = (takeLength bs).map fun r => (7 + r.1, r.2) := rfl

theorem takeLength_last {g : Nat} (h : g < 7) (bs : Bits) :
    takeLength (fieldBits 3 g ++ bs) = some (3 + g, bs) := by
  match g, h with
  | 0, _ | 1, _ | 2, _ | 3, _ | 4, _ | 5, _ | 6, _ => rfl

theorem takeLength_encodeLength {len : Nat} (h : 3 ≤ len) (rest : Bits) :
    takeLength (encodeLength len ++ rest) = some (len, rest) := by
  induction len using Nat.strong_induction_on with
  | h len ih =>
    by_cases hlast : len < 10
    · obtain ⟨g, rfl⟩ := Nat.exists_eq_add_of_le h
      rw [encodeLength_last (by omega), takeLength_last (by omega)]
    · obtain ⟨len', rfl⟩ := Nat.exists_eq_add_of_le (show 7 ≤ len by omega)
      rw [encodeLength_continue (by omega), List.append_assoc, takeLength_continue, ih len' (by omega) (by omega),
        Option.map_some]

theorem takeLength_eq_some_iff {len : Nat} {bs rest : Bits} :
    takeLength bs = some (len, rest) ↔ 3 ≤ len ∧ bs = encodeLength len ++ rest := by
  constructor
  · intro h
    induction bs using takeLength.induct generalizing len with
    | case1 b0 b1 b2 bs hseven ih =>
      rw [takeLength, if_pos hseven] at h
      obtain ⟨⟨len', rest'⟩, hgroups, heq⟩ := Option.map_eq_some_iff.mp h
      cases heq
      obtain ⟨hle, rfl⟩ := ih hgroups
      have hbits : [b0, b1, b2] = fieldBits 3 7 :=
        (fieldBits_bitsToNat [b0, b1, b2]).symm.trans (congrArg (fieldBits 3) hseven)
      refine ⟨by omega, ?_⟩
      rw [Config.lenContinue, encodeLength_continue hle, ← hbits]
      rfl
    | case2 b0 b1 b2 bs hlast =>
      rw [takeLength, if_neg hlast] at h
      cases h
      have hlt : bitsToNat [b0, b1, b2] < 8 := bitsToNat_lt [b0, b1, b2]
      have hgroup : bitsToNat [b0, b1, b2] < 7 := by rw [Config.lenContinue] at hlast; omega
      have hbits : fieldBits 3 (bitsToNat [b0, b1, b2]) = [b0, b1, b2] := fieldBits_bitsToNat [b0, b1, b2]
      refine ⟨Nat.le_add_right 3 _, ?_⟩
      rw [Config.lenBase, encodeLength_last hgroup, hbits]
      rfl
    | case3 bs hshort => simp [takeLength] at h
  · rintro ⟨hle, rfl⟩
    exact takeLength_encodeLength hle rest

/-! ### The raw body -/

theorem encodeRawBody_cons (b : Byte) (data : List Byte) :
    encodeRawBody (b :: data) = fieldBits 8 b.toNat ++ encodeRawBody data :=
  List.append_assoc ..

theorem takeRawBody_byte {used : Bits} (hlen : used.length = 8) (rest : Bits) :
    takeRawBody (used ++ rest) = if bitsToNat used = 0 then ([], some rest)
      else (BitVec.ofNat 8 (bitsToNat used) :: (takeRawBody rest).1, (takeRawBody rest).2) := by
  match used, hlen with
  | [b0, b1, b2, b3, b4, b5, b6, b7], _ =>
    show takeRawBody (b0 :: b1 :: b2 :: b3 :: b4 :: b5 :: b6 :: b7 :: rest) = _
    rw [takeRawBody]

theorem takeRawBody_encodeRawBody {data : List Byte} (h : ∀ b ∈ data, b ≠ 0) (rest : Bits) :
    takeRawBody (encodeRawBody data ++ rest) = (data, some rest) := by
  induction data with
  | nil => exact takeRawBody_byte (used := fieldBits 8 0) rfl rest
  | cons b data ih =>
    obtain ⟨hb, hdata⟩ := List.forall_mem_cons.mp h
    have hvalue : b.toNat ≠ 0 := fun h0 => hb (BitVec.eq_of_toNat_eq h0)
    rw [encodeRawBody_cons, List.append_assoc, takeRawBody_byte (length_fieldBits 8 _), bitsToNat_fieldBits b.isLt,
      if_neg hvalue, ih hdata, BitVec.ofNat_toNat, BitVec.setWidth_eq]

theorem takeRawBody_eq_iff {data : List Byte} {bs rest : Bits} :
    takeRawBody bs = (data, some rest) ↔ (∀ b ∈ data, b ≠ 0) ∧ bs = encodeRawBody data ++ rest := by
  constructor
  · intro h
    induction bs using takeRawBody.induct generalizing data with
    | case1 b0 b1 b2 b3 b4 b5 b6 b7 bs hzero =>
      rw [takeRawBody, if_pos hzero] at h
      cases h
      have hbits : [b0, b1, b2, b3, b4, b5, b6, b7] = fieldBits 8 0 :=
        (fieldBits_bitsToNat [b0, b1, b2, b3, b4, b5, b6, b7]).symm.trans (congrArg (fieldBits 8) hzero)
      exact ⟨List.forall_mem_nil _, congrArg (· ++ rest) hbits⟩
    | case2 b0 b1 b2 b3 b4 b5 b6 b7 bs hvalue ih =>
      rw [takeRawBody, if_neg hvalue] at h
      obtain ⟨rfl, hrest⟩ := Prod.mk.inj h
      obtain ⟨hdata, hbs⟩ := ih (Prod.ext rfl hrest)
      have hlt : bitsToNat [b0, b1, b2, b3, b4, b5, b6, b7] < 2 ^ 8 := bitsToNat_lt _
      have htoNat : (BitVec.ofNat 8 (bitsToNat [b0, b1, b2, b3, b4, b5, b6, b7])).toNat =
          bitsToNat [b0, b1, b2, b3, b4, b5, b6, b7] := by rw [BitVec.toNat_ofNat, Nat.mod_eq_of_lt hlt]
      have hbits : fieldBits 8 (bitsToNat [b0, b1, b2, b3, b4, b5, b6, b7]) = [b0, b1, b2, b3, b4, b5, b6, b7] :=
        fieldBits_bitsToNat [b0, b1, b2, b3, b4, b5, b6, b7]
      refine ⟨List.forall_mem_cons.mpr ⟨fun h0 => hvalue ?_, hdata⟩, ?_⟩
      · rw [← htoNat, h0]
        rfl
      · rw [encodeRawBody_cons, htoNat, List.append_assoc, ← hbs, hbits]
        rfl
    | case3 bs hshort => simp [takeRawBody] at h
  · rintro ⟨hdata, rfl⟩
    exact takeRawBody_encodeRawBody hdata rest

end Sys2Proof

/-! ## A token and its bits (R52, R53, R54, R62)

The `LIT` rows share one spelling, told by the unary count and the field `L`; the tokens of the copy class share
another, told by the width. -/

namespace Sys2Proof

/-! ### The `LIT` rows -/

theorem litFields_litOfFields {u l : Nat} (h : l < 2 ^ (4 + u)) : litFields (litOfFields u l) = some (u, l) := by
  match u, h with
  | 0, h | 1, h | 2, h | 3, h | 4, h => simp only [litOfFields, litFields, BitVec.toNat_ofNat, Nat.mod_eq_of_lt h]
  | u + 5, _ => rfl

theorem wellFormed_litOfFields {u l : Nat} (h : l < 2 ^ (4 + u)) : wellFormed (litOfFields u l) = true := by
  match u, h with
  | 0, _ | 1, _ | 2, _ | 3, _ | 4, _ => rfl
  | u + 5, h => exact (wellFormed_litIll_iff _ _).mpr ⟨Nat.le_add_left 5 u, h⟩

/-- A well-formed token that is not of the copy class is the `LIT` of some fields (R57). -/
theorem exists_eq_litOfFields {i : Instr} (hwf : wellFormed i = true) (hlit : isCopyClass i = false) :
    ∃ u l, l < 2 ^ (4 + u) ∧ i = litOfFields u l := by
  cases i with
  | litU0 l => exact ⟨0, l.toNat, l.isLt, by simp [litOfFields]⟩
  | litU1 l => exact ⟨1, l.toNat, l.isLt, by simp [litOfFields]⟩
  | litU2 l => exact ⟨2, l.toNat, l.isLt, by simp [litOfFields]⟩
  | litU3 l => exact ⟨3, l.toNat, l.isLt, by simp [litOfFields]⟩
  | litU4 l => exact ⟨4, l.toNat, l.isLt, by simp [litOfFields]⟩
  | litIll u l =>
    obtain ⟨hu, hl⟩ := (wellFormed_litIll_iff u l).mp hwf
    obtain ⟨n, rfl⟩ := Nat.exists_eq_add_of_le' hu
    exact ⟨n + 5, l, hl, rfl⟩
  | cpy5 | raw | cpy10 | cpy15 => cases hlit

theorem encode_of_litFields {i : Instr} {u l : Nat} (h : litFields i = some (u, l)) : encode i = encodeLit u l := by
  cases i <;> cases h <;> rfl

theorem encode_litOfFields {u l : Nat} (h : l < 2 ^ (4 + u)) : encode (litOfFields u l) = encodeLit u l :=
  encode_of_litFields (litFields_litOfFields h)

theorem decodeLit_eq_token_iff_encodeLit {bs rest : Bits} {i : Instr} : decodeLit bs = .token i rest ↔
    ∃ u l, l < 2 ^ (4 + u) ∧ i = litOfFields u l ∧ true :: bs = encodeLit u l ++ rest := by
  simp only [decodeLit_eq_token_iff, takeUnary_eq_some_iff, takeField_eq_some_iff]
  constructor
  · rintro ⟨u, _, l, rfl, ⟨hl, rfl⟩, rfl⟩
    exact ⟨u, l, hl, rfl, by simp [encodeLit, Config.litBaseWidth]⟩
  · rintro ⟨u, l, hl, rfl, hbs⟩
    exact ⟨u, _, l, by simpa [encodeLit, Config.litBaseWidth] using hbs, ⟨hl, rfl⟩, rfl⟩

/-! ### The copy class -/

/-- The bits `used` spell the copy-class token `i` from its offset field on, at width `w`, where a copy of offset field
`o` and length `len` is `mk o len`; at width 10 the field 0 is the escape to `RAW` (R53, R54, R102). -/
inductive OffsetSpells (w : Nat) (mk : BitVec w → Nat → Instr) : Instr → Bits → Prop
  | copy (o : BitVec w) (len : Nat) (escape : ¬ (w = 10 ∧ o.toNat = 0)) (length : 3 ≤ len) :
    OffsetSpells w mk (mk o len) (fieldBits w o.toNat ++ encodeLength len)
  | raw (data : List Byte) (width : w = 10) (nonzero : ∀ b ∈ data, b ≠ 0) :
    OffsetSpells w mk (.raw data) (fieldBits w 0 ++ encodeRawBody data)

theorem OffsetSpells.decodeOffset_eq {w : Nat} {mk : BitVec w → Nat → Instr} {i : Instr} {used : Bits}
    (h : OffsetSpells w mk i used) (rest : Bits) :
    decodeOffset w (fun o len => mk (BitVec.ofNat w o) len) (used ++ rest) = .token i rest := by
  obtain ⟨o, len, hescape, hle⟩ | ⟨data, hw, hdata⟩ := h
  · have hfield := takeField_eq_some_iff.mpr ⟨o.isLt, List.append_assoc (fieldBits w o.toNat) (encodeLength len) rest⟩
    rw [decodeOffset_of_copy hfield hescape, BitVec.ofNat_toNat, BitVec.setWidth_eq]
    exact decodeCopyLength_eq_token_iff.mpr ⟨len, takeLength_encodeLength hle rest, rfl⟩
  · have hfield := takeField_eq_some_iff.mpr
      ⟨Nat.two_pow_pos w, List.append_assoc (fieldBits w 0) (encodeRawBody data) rest⟩
    rw [decodeOffset_of_raw hfield ⟨hw, rfl⟩]
    exact decodeRaw_eq_token_iff.mpr ⟨data, takeRawBody_encodeRawBody hdata rest, rfl⟩

theorem offsetSpells_of_decodeOffset {w : Nat} {mk : BitVec w → Nat → Instr} {bs rest : Bits} {i : Instr}
    (h : decodeOffset w (fun o len => mk (BitVec.ofNat w o) len) bs = .token i rest) :
    ∃ used, OffsetSpells w mk i used ∧ bs = used ++ rest := by
  obtain ⟨v, mid, hfield⟩ := takeField_of_decodeOffset h
  obtain ⟨hv, hbs⟩ := takeField_eq_some_iff.mp hfield
  obtain ⟨o, rfl⟩ : ∃ o : BitVec w, o.toNat = v := ⟨BitVec.ofNatLT v hv, rfl⟩
  by_cases hescape : w = 10 ∧ o.toNat = 0
  · rw [decodeOffset_of_raw hfield hescape] at h
    obtain ⟨data, hbody, rfl⟩ := decodeRaw_eq_token_iff.mp h
    obtain ⟨hdata, rfl⟩ := takeRawBody_eq_iff.mp hbody
    rw [hescape.2, ← List.append_assoc] at hbs
    exact ⟨_, .raw data hescape.1 hdata, hbs⟩
  · rw [decodeOffset_of_copy hfield hescape, BitVec.ofNat_toNat, BitVec.setWidth_eq] at h
    obtain ⟨len, hlen, rfl⟩ := decodeCopyLength_eq_token_iff.mp h
    obtain ⟨hle, rfl⟩ := takeLength_eq_some_iff.mp hlen
    rw [← List.append_assoc] at hbs
    exact ⟨_, .copy o len hescape hle, hbs⟩

theorem OffsetSpells.cpy5 {i : Instr} {used : Bits} (h : OffsetSpells 5 .cpy5 i used) :
    wellFormed i = true ∧ encode i = [false, true, true] ++ used := by
  obtain ⟨o, len, -, hle⟩ | ⟨data, hw, -⟩ := h
  · exact ⟨(wellFormed_cpy5_iff o len).mpr hle, rfl⟩
  · cases hw

theorem OffsetSpells.cpy10 {i : Instr} {used : Bits} (h : OffsetSpells 10 .cpy10 i used) :
    wellFormed i = true ∧ encode i = [false, true, false] ++ used := by
  obtain ⟨o, len, hescape, hle⟩ | ⟨data, -, hdata⟩ := h
  · have ho : o ≠ 0 := by rintro rfl; exact hescape ⟨rfl, rfl⟩
    exact ⟨(wellFormed_cpy10_iff o len).mpr ⟨ho, hle⟩, rfl⟩
  · exact ⟨(wellFormed_raw_iff data).mpr hdata, rfl⟩

theorem OffsetSpells.cpy15 {i : Instr} {used : Bits} (h : OffsetSpells 15 .cpy15 i used) :
    wellFormed i = true ∧ encode i = [false, false] ++ used := by
  obtain ⟨o, len, -, hle⟩ | ⟨data, hw, -⟩ := h
  · exact ⟨(wellFormed_cpy15_iff o len).mpr hle, rfl⟩
  · cases hw

/-! ### Every token -/

theorem decode_encode_append {i : Instr} (hwf : wellFormed i = true) (rest : Bits) :
    decode (encode i ++ rest) = .token i rest := by
  cases hclass : isCopyClass i with
  | false =>
    obtain ⟨u, l, hl, rfl⟩ := exists_eq_litOfFields hwf hclass
    rw [encode_litOfFields hl]
    exact decodeLit_eq_token_iff_encodeLit.mpr ⟨u, l, hl, rfl, rfl⟩
  | true =>
    cases i with
    | litU0 | litU1 | litU2 | litU3 | litU4 | litIll => cases hclass
    | cpy5 o len =>
      have hspells : OffsetSpells 5 .cpy5 (.cpy5 o len) _ := .copy o len (by simp) ((wellFormed_cpy5_iff o len).mp hwf)
      exact hspells.decodeOffset_eq rest
    | raw data =>
      have hspells : OffsetSpells 10 .cpy10 (.raw data) _ := .raw data rfl ((wellFormed_raw_iff data).mp hwf)
      exact hspells.decodeOffset_eq rest
    | cpy10 o len =>
      obtain ⟨ho, hle⟩ := (wellFormed_cpy10_iff o len).mp hwf
      have hspells : OffsetSpells 10 .cpy10 (.cpy10 o len) _ :=
        .copy o len (fun hescape => ho (BitVec.eq_of_toNat_eq hescape.2)) hle
      exact hspells.decodeOffset_eq rest
    | cpy15 o len =>
      have hspells : OffsetSpells 15 .cpy15 (.cpy15 o len) _ :=
        .copy o len (by simp) ((wellFormed_cpy15_iff o len).mp hwf)
      exact hspells.decodeOffset_eq rest

/-- The bits that led the decoder to its reader, and those that the reader took, are the token's own. -/
theorem eq_encode_append_of_used {first used bs rest : Bits} {i : Instr}
    (h : wellFormed i = true ∧ encode i = first ++ used) (hbs : bs = used ++ rest) :
    wellFormed i = true ∧ first ++ bs = encode i ++ rest :=
  ⟨h.1, by rw [h.2, hbs, List.append_assoc]⟩

theorem encode_of_decode {bs rest : Bits} {i : Instr} (h : decode bs = .token i rest) :
    wellFormed i = true ∧ bs = encode i ++ rest := by
  match bs, h with
  | true :: bs, h =>
    obtain ⟨u, l, hl, rfl, hbs⟩ := decodeLit_eq_token_iff_encodeLit.mp h
    exact ⟨wellFormed_litOfFields hl, by rw [encode_litOfFields hl, hbs]⟩
  | false :: true :: true :: bs, h =>
    obtain ⟨used, hspells, hbs⟩ := offsetSpells_of_decodeOffset h
    exact eq_encode_append_of_used (first := [false, true, true]) hspells.cpy5 hbs
  | false :: true :: false :: bs, h =>
    obtain ⟨used, hspells, hbs⟩ := offsetSpells_of_decodeOffset h
    exact eq_encode_append_of_used (first := [false, true, false]) hspells.cpy10 hbs
  | false :: false :: bs, h =>
    obtain ⟨used, hspells, hbs⟩ := offsetSpells_of_decodeOffset h
    exact eq_encode_append_of_used (first := [false, false]) hspells.cpy15 hbs

/-- Settles O15. -/
theorem decodeEncodeRoundTrip : Obligations.DecodeEncodeRoundTrip :=
  fun _ rest hwf => decode_encode_append hwf rest

/-- Settles O16. -/
theorem encodeDecodeRoundTrip : Obligations.EncodeDecodeRoundTrip :=
  fun _ _ _ h => encode_of_decode h

end Sys2Proof

/-! ## Bits that end inside a token (R62)

Every bit string can be continued to one that begins with a token. So a string that the decoder calls truncated is a
proper beginning of a token; and no token begins another, since `decode` tells which one it is. -/

namespace Sys2Proof

/-- Every bit string can be continued to one that begins with one of the words. -/
def CoversBits (word : Bits → Prop) : Prop := ∀ bs : Bits, ∃ more w rest, word w ∧ bs ++ more = w ++ rest

/-- The first `n` bits are a field, either of the bits that are there or of these and enough zeros. -/
theorem exists_leading_field (n : Nat) (bs : Bits) :
    ∃ more v rest, v < 2 ^ n ∧ bs ++ more = fieldBits n v ++ rest ∧ (more = [] ∨ rest = []) := by
  have hfield (w : Bits) (hlen : w.length = n) : bitsToNat w < 2 ^ n ∧ fieldBits n (bitsToNat w) = w := by
    rw [← hlen]
    exact ⟨bitsToNat_lt w, fieldBits_bitsToNat w⟩
  by_cases hlen : n ≤ bs.length
  · obtain ⟨hlt, heq⟩ := hfield (bs.take n) (List.length_take_of_le hlen)
    exact ⟨[], _, bs.drop n, hlt, by rw [heq, List.append_nil, List.take_append_drop], .inl rfl⟩
  · obtain ⟨hlt, heq⟩ := hfield (bs ++ List.replicate (n - bs.length) false) (by simp; omega)
    exact ⟨List.replicate (n - bs.length) false, _, [], hlt, by rw [heq, List.append_nil], .inr rfl⟩

namespace CoversBits

variable {word word' : Bits → Prop}

theorem mono (h : CoversBits word) (hword : ∀ w, word w → word' w) : CoversBits word' := by
  intro bs
  obtain ⟨more, w, rest, hw, hbs⟩ := h bs
  exact ⟨more, w, rest, hword w hw, hbs⟩

/-- Words made of a first part and of a second one, which the first may select. -/
theorem append (h : CoversBits word) (hnext : ∀ w, word w → CoversBits fun w' => word' (w ++ w')) :
    CoversBits word' := by
  intro bs
  obtain ⟨more, w, rest, hw, hbs⟩ := h bs
  obtain ⟨more', w', rest', hw', hrest⟩ := hnext w hw rest
  refine ⟨more ++ more', w ++ w', rest', hw', ?_⟩
  rw [← List.append_assoc, hbs, List.append_assoc, hrest, List.append_assoc]

theorem field (n : Nat) : CoversBits fun w => ∃ v, v < 2 ^ n ∧ w = fieldBits n v := by
  intro bs
  obtain ⟨more, v, rest, hv, hbs, -⟩ := exists_leading_field n bs
  exact ⟨more, _, rest, ⟨v, hv, rfl⟩, hbs⟩

/-- A first bit that selects the words after it. -/
theorem bit (h : ∀ b, CoversBits fun w => word (b :: w)) : CoversBits word := by
  refine (field 1).append ?_
  rintro _ ⟨v, -, rfl⟩
  exact h (v % 2 == 1)

/-- Words of fields of one width, in which each field by its value either ends the word or goes before another. -/
theorem fields {n : Nat} (hn : 0 < n) (hex : ∃ w, word w)
    (h : ∀ v, v < 2 ^ n → word (fieldBits n v) ∨ ∀ w, word w → word (fieldBits n v ++ w)) : CoversBits word := by
  intro bs
  induction hlen : bs.length using Nat.strong_induction_on generalizing bs with
  | h k ih =>
    obtain ⟨more, v, rest, hv, hbs, hends⟩ := exists_leading_field n bs
    obtain hlast | hgoesOn := h v hv
    · exact ⟨more, _, rest, hlast, hbs⟩
    · obtain rfl | rfl := hends
      · have hshorter : rest.length < k := by
          have := congrArg List.length hbs
          simp only [List.append_nil, List.length_append, length_fieldBits] at this
          omega
        obtain ⟨more, w, rest', hw, hrest⟩ := ih _ hshorter rest rfl
        rw [List.append_nil] at hbs
        exact ⟨more, _, rest', hgoesOn w hw, by rw [hbs, List.append_assoc, hrest, List.append_assoc]⟩
      · obtain ⟨w, hw⟩ := hex
        rw [List.append_nil] at hbs
        exact ⟨more ++ w, _, [], hgoesOn w hw, by rw [← List.append_assoc, hbs, List.append_nil]⟩

end CoversBits

/-! ### The parts of a token -/

theorem unary_coversBits : CoversBits fun w => ∃ u, w = List.replicate u true ++ [false] := by
  refine .fields Nat.one_pos ⟨_, 0, rfl⟩ fun v hv => ?_
  obtain rfl | rfl : v = 0 ∨ v = 1 := by omega
  · exact .inl ⟨0, rfl⟩
  · refine .inr ?_
    rintro _ ⟨u, rfl⟩
    exact ⟨u + 1, rfl⟩

theorem encodeLength_coversBits : CoversBits fun w => ∃ len, 3 ≤ len ∧ w = encodeLength len := by
  refine .fields (n := 3) (by decide) ⟨_, 3, le_rfl, rfl⟩ fun v hv => ?_
  obtain hlast | rfl : v < 7 ∨ v = 7 := by omega
  · exact .inl ⟨3 + v, Nat.le_add_right 3 v, (encodeLength_last hlast).symm⟩
  · refine .inr ?_
    rintro _ ⟨len, hle, rfl⟩
    exact ⟨7 + len, by omega, (encodeLength_continue hle).symm⟩

theorem encodeRawBody_coversBits : CoversBits fun w => ∃ data, (∀ b ∈ data, b ≠ 0) ∧ w = encodeRawBody data := by
  refine .fields (n := 8) (by decide) ⟨_, [], List.forall_mem_nil _, rfl⟩ fun v hv => ?_
  obtain ⟨b, rfl⟩ : ∃ b : Byte, b.toNat = v := ⟨BitVec.ofNatLT v hv, rfl⟩
  by_cases hb : b = 0
  · exact .inl ⟨[], List.forall_mem_nil _, by rw [hb]; rfl⟩
  · refine .inr ?_
    rintro _ ⟨data, hdata, rfl⟩
    exact ⟨b :: data, List.forall_mem_cons.mpr ⟨hb, hdata⟩, (encodeRawBody_cons b data).symm⟩

/-! ### The token -/

theorem encodeLit_coversBits : CoversBits fun w => ∃ u l, l < 2 ^ (4 + u) ∧ true :: w = encodeLit u l := by
  refine unary_coversBits.append ?_
  rintro _ ⟨u, rfl⟩
  refine (CoversBits.field (4 + u)).mono ?_
  rintro _ ⟨l, hl, rfl⟩
  exact ⟨u, l, hl, by simp [encodeLit, Config.litBaseWidth]⟩

theorem offsetSpells_coversBits (w : Nat) (mk : BitVec w → Nat → Instr) :
    CoversBits fun used => ∃ i, OffsetSpells w mk i used := by
  refine (CoversBits.field w).append ?_
  rintro _ ⟨v, hv, rfl⟩
  obtain ⟨o, rfl⟩ : ∃ o : BitVec w, o.toNat = v := ⟨BitVec.ofNatLT v hv, rfl⟩
  by_cases hescape : w = 10 ∧ o.toNat = 0
  · refine encodeRawBody_coversBits.mono ?_
    rintro _ ⟨data, hdata, rfl⟩
    exact ⟨.raw data, by rw [hescape.2]; exact .raw data hescape.1 hdata⟩
  · refine encodeLength_coversBits.mono ?_
    rintro _ ⟨len, hle, rfl⟩
    exact ⟨_, .copy o len hescape hle⟩

theorem encode_coversBits : CoversBits fun w => ∃ i, wellFormed i = true ∧ encode i = w := by
  refine .bit fun
    | true => ?_
    | false => .bit fun
      | true => .bit fun
        | true => ?_
        | false => ?_
      | false => ?_
  · refine encodeLit_coversBits.mono ?_
    rintro w ⟨u, l, hl, hw⟩
    exact ⟨litOfFields u l, wellFormed_litOfFields hl, (encode_litOfFields hl).trans hw.symm⟩
  · exact (offsetSpells_coversBits 5 .cpy5).mono fun used ⟨i, h⟩ => ⟨i, h.cpy5⟩
  · exact (offsetSpells_coversBits 10 .cpy10).mono fun used ⟨i, h⟩ => ⟨i, h.cpy10⟩
  · exact (offsetSpells_coversBits 15 .cpy15).mono fun used ⟨i, h⟩ => ⟨i, h.cpy15⟩

/-! ### Truncated bits -/

/-- A token's bits that begin the bits of another are all of them: it is the same token. -/
theorem eq_nil_of_encode_eq {i j : Instr} (hi : wellFormed i = true) (hj : wellFormed j = true) {more : Bits}
    (h : encode i = encode j ++ more) : more = [] := by
  have htoken : DecodeResult.token i [] = .token j more := by
    rw [← decode_encode_append hi [], List.append_nil, h, decode_encode_append hj more]
  exact (DecodeResult.token.inj htoken).2.symm

/-- Settles O17. -/
theorem truncatedIffProperPrefix : Obligations.TruncatedIffProperPrefix := by
  intro bs
  constructor
  · rintro ⟨data, htrunc⟩
    have hno (i : Instr) (hi : wellFormed i = true) (rest : Bits) : bs ≠ encode i ++ rest := by
      rintro rfl
      cases (decode_encode_append hi rest).symm.trans htrunc
    obtain ⟨more, _, rest, ⟨i, hi, rfl⟩, hbs⟩ := encode_coversBits bs
    refine ⟨i, hi, ?_, fun heq => hno i hi [] (heq.trans (List.append_nil _).symm)⟩
    obtain hprefix | ⟨tail, htail⟩ := List.prefix_or_prefix_of_prefix ⟨more, hbs⟩ (List.prefix_append (encode i) rest)
    · exact hprefix
    · exact absurd htail.symm (hno i hi tail)
  · rintro ⟨i, hi, ⟨more, hmore⟩, hne⟩
    cases hdecode : decode bs with
    | truncated data => exact ⟨data, rfl⟩
    | token j rest =>
      obtain ⟨hj, rfl⟩ := encode_of_decode hdecode
      rw [List.append_assoc] at hmore
      obtain ⟨rfl, rfl⟩ := List.append_eq_nil_iff.mp (eq_nil_of_encode_eq hi hj hmore.symm)
      exact absurd hmore hne

end Sys2Proof

/-! ## The opcode table (R60)

A row's mask covers all the bits it looks at, so a row matches exactly the strings that begin with its bits. -/

namespace Sys2Proof

theorem mask_eq_of_mem_opcodeRows {r : OpcodeRow} (h : r ∈ opcodeRows) :
    r.mask = 2 ^ r.prefixLen - 1 ∧ r.pattern < 2 ^ r.prefixLen := by
  revert r
  decide

theorem matchesBits_iff {r : OpcodeRow} (h : r ∈ opcodeRows) (bs : Bits) :
    r.matchesBits bs = true ↔ fieldBits r.prefixLen r.pattern <+: bs := by
  obtain ⟨hmask, hpattern⟩ := mask_eq_of_mem_opcodeRows h
  rw [OpcodeRow.matchesBits, Bool.and_eq_true, decide_eq_true_iff, beq_iff_eq, hmask, Nat.and_two_pow_sub_one_eq_mod]
  constructor
  · rintro ⟨hlen, hbits⟩
    have htake : (bs.take r.prefixLen).length = r.prefixLen := List.length_take_of_le hlen
    have hlt : bitsToNat (bs.take r.prefixLen) < 2 ^ r.prefixLen := by
      have := bitsToNat_lt (bs.take r.prefixLen)
      rwa [htake] at this
    rw [Nat.mod_eq_of_lt hlt] at hbits
    rw [← (bitsToNat_eq_iff hpattern htake).mp hbits]
    exact List.take_prefix _ _
  · rintro ⟨rest, rfl⟩
    refine ⟨by simp, ?_⟩
    rw [List.take_left' (length_fieldBits _ _), bitsToNat_fieldBits hpattern, Nat.mod_eq_of_lt hpattern]

theorem map_find?_cons {α β : Type} (p : α → Bool) (f : α → β) (a : α) (as : List α) :
    ((a :: as).find? p).map f = if p a = true then some (f a) else (as.find? p).map f := by
  rw [List.find?_cons]
  cases p a <;> rfl

/-- The table as a decision list: the first row whose bits begin the string. -/
theorem rowOf_eq (bs : Bits) : rowOf bs =
    if [true, false] <+: bs then some "LIT.U0"
    else if [true, true, false] <+: bs then some "LIT.U1"
    else if [true, true, true, false] <+: bs then some "LIT.U2"
    else if [true, true, true, true, false] <+: bs then some "LIT.U3"
    else if [true, true, true, true, true, false] <+: bs then some "LIT.U4"
    else if [true, true, true, true, true, true] <+: bs then some "LIT.ILL"
    else if [false, true, true] <+: bs then some "CPY5"
    else if [false, true, false] ++ fieldBits 10 0 <+: bs then some "RAW"
    else if [false, true, false] <+: bs then some "CPY10"
    else if [false, false] <+: bs then some "CPY15"
    else none := by
  have hfind : opcodeRows.find? (·.matchesBits bs) =
      opcodeRows.find? fun r => decide (fieldBits r.prefixLen r.pattern <+: bs) :=
    List.find?_congr fun r hr => by rw [Bool.eq_iff_iff, decide_eq_true_iff, matchesBits_iff hr]
  rw [rowOf, hfind]
  simp only [opcodeRows, map_find?_cons, decide_eq_true_iff]
  rfl

theorem fieldBits_prefix_iff {n v v' : Nat} (hv : v < 2 ^ n) (hv' : v' < 2 ^ n) (rest : Bits) :
    fieldBits n v <+: fieldBits n v' ++ rest ↔ v = v' := by
  constructor
  · rintro ⟨tail, htail⟩
    have hbits : fieldBits n v = fieldBits n v' := List.append_inj_left htail (by simp)
    rw [← bitsToNat_fieldBits hv, hbits, bitsToNat_fieldBits hv']
  · rintro rfl
    exact List.prefix_append _ _

theorem rowOf_encodeLit {u l : Nat} (rest : Bits) :
    rowOf (encodeLit u l ++ rest) = some (mnemonic (litOfFields u l)) := by
  match u with
  | 0 | 1 | 2 | 3 | 4 => simp [rowOf_eq, encodeLit, List.replicate_succ, litOfFields, mnemonic]
  | u + 5 => simp [rowOf_eq, encodeLit, List.replicate_succ, litOfFields, mnemonic]

/-- Settles O18: the escape row stands before that of `CPY10` and asks for the offset field 0, which no `CPY10` has. -/
theorem opcodeRowSelectsTheToken : Obligations.OpcodeRowSelectsTheToken := by
  intro i rest hwf
  cases hclass : isCopyClass i with
  | false =>
    obtain ⟨u, l, hl, rfl⟩ := exists_eq_litOfFields hwf hclass
    rw [encode_litOfFields hl, rowOf_encodeLit]
  | true =>
    cases i with
    | litU0 | litU1 | litU2 | litU3 | litU4 | litIll => cases hclass
    | cpy5 o len => simp [rowOf_eq, encode, mnemonic]
    | raw data => simp [rowOf_eq, encode, mnemonic]
    | cpy10 o len =>
      have ho : ¬ 0 = o.toNat := fun h => ((wellFormed_cpy10_iff o len).mp hwf).1 (BitVec.eq_of_toNat_eq h.symm)
      have hescape : ¬ fieldBits 10 0 <+: fieldBits 10 o.toNat ++ (encodeLength len ++ rest) :=
        (fieldBits_prefix_iff (by decide) o.isLt _).not.mpr ho
      simp [rowOf_eq, encode, mnemonic, hescape]
    | cpy15 o len => simp [rowOf_eq, encode, mnemonic]

end Sys2Proof

/-! ## The table index of a `LIT` (R57, R64, R65)

The class bases `0, 16, 48, 112, …` are 16 below the powers of two, so index plus 16 is `2^(4+U) + L`: `U` is read off
its leading bit and `L` off the bits below that. -/

namespace Sys2Proof

open Machine

theorem litIndex_add_sixteen (u l : Nat) : litIndex u l + 16 = 2 ^ (4 + u) + l := by
  have hpos := Nat.two_pow_pos u
  rw [litIndex, classBase, Config.litClassShift, Nat.shiftLeft_eq, Nat.pow_add]
  omega

theorem log_litIndex {u l : Nat} (h : l < 2 ^ (4 + u)) : Nat.log 2 (litIndex u l + 16) = 4 + u := by
  rw [litIndex_add_sixteen]
  exact Nat.log_eq_of_pow_le_of_lt_pow (Nat.le_add_right _ _) (by rw [Nat.pow_succ]; omega)

theorem litIndex_inj {u u' l l' : Nat} (h : l < 2 ^ (4 + u)) (h' : l' < 2 ^ (4 + u'))
    (heq : litIndex u l = litIndex u' l') : u = u' ∧ l = l' := by
  have hlog := log_litIndex h
  rw [heq, log_litIndex h'] at hlog
  obtain rfl : u' = u := by omega
  have hl := litIndex_add_sixteen u' l
  have hl' := litIndex_add_sixteen u' l'
  exact ⟨rfl, by omega⟩

/-- `LIT i` names the `LIT` of some fields of the five legal classes, and these have the index `i`. -/
theorem exists_litOfIndex_eq (i : Byte) :
    ∃ u l, u ≤ 4 ∧ l < 2 ^ (4 + u) ∧ litIndex u l = i.toNat ∧ litOfIndex i = litOfFields u l := by
  have hi := i.isLt
  have hindex (u l : Nat) (h : 2 ^ (4 + u) + l = i.toNat + 16) : litIndex u l = i.toNat := by
    have := litIndex_add_sixteen u l
    omega
  unfold litOfIndex
  split
  · exact ⟨0, i.toNat, by omega, by omega, hindex _ _ (by omega), rfl⟩
  · split
    · exact ⟨1, i.toNat - 16, by omega, by omega, hindex _ _ (by omega), rfl⟩
    · split
      · exact ⟨2, i.toNat - 48, by omega, by omega, hindex _ _ (by omega), rfl⟩
      · split
        · exact ⟨3, i.toNat - 112, by omega, by omega, hindex _ _ (by omega), rfl⟩
        · exact ⟨4, i.toNat - 240, by omega, by omega, hindex _ _ (by omega), rfl⟩

/-- Settles O20. -/
theorem litNotationNamesItsIndex : Obligations.LitNotationNamesItsIndex := by
  intro i
  obtain ⟨u, l, hu, hl, hindex, heq⟩ := exists_litOfIndex_eq i
  exact ⟨u, l, by rw [heq, litFields_litOfFields hl], hu, hl, hindex⟩

/-- Settles O19: `LIT i` gives a spelling of every index, and the index has no other. -/
theorem tableIndexHasOneSpelling : Obligations.TableIndexHasOneSpelling := by
  intro idx hidx
  obtain ⟨u, l, hu, hl, hindex, -⟩ := exists_litOfIndex_eq (BitVec.ofNat 8 idx)
  rw [BitVec.toNat_ofNat, Nat.mod_eq_of_lt hidx] at hindex
  exact ⟨u, l, hu, hl, hindex, fun u' l' hl' h => litIndex_inj hl' hl (h.trans hindex.symm)⟩

/-! ### `SYM b` -/

theorem exec_of_litFields {i : Instr} {u l : Nat} (h : litFields i = some (u, l)) (s : State) :
    exec i s = litToken u l s := by
  cases i <;> cases h <;> rfl

theorem mem_identityTable (b : Byte) : b ∈ identityTable.entries := by
  rw [identityTable_entries]
  exact List.mem_map.mpr ⟨b.toNat, List.mem_range.mpr b.isLt, by simp⟩

/-- A permutation table holds every byte: its 256 distinct entries are all the byte values there are (R16, R94). -/
theorem mem_of_isPermutation {t : Table} (h : Table.isPermutation t) (b : Byte) : b ∈ t.entries := by
  have hsub : t.entries.Subperm identityTable.entries := h.subperm fun b _ => mem_identityTable b
  have hperm := hsub.perm_of_length_le (by rw [t.size, identityTable.size])
  exact hperm.mem_iff.mpr (mem_identityTable b)

theorem tablePosition_lt {t : Table} (h : Table.isPermutation t) (b : Byte) : tablePosition t b < 256 := by
  rw [← t.size]
  exact List.idxOf_lt_length_iff.mpr (mem_of_isPermutation h b)

theorem tableAt_tablePosition {t : Table} {b : Byte} (h : tablePosition t b < 256) :
    tableAt t ⟨tablePosition t b, h⟩ = b :=
  List.getElem_idxOf (t.size.symm ▸ h)

theorem litToken_of_index {u l : Nat} {s : State} (hbits : s.cur + litBits u ≤ payloadBits s) {i : Fin 256}
    (hindex : litIndex u l = i) : litToken u l s = .next (litTake i (advance (litBits u) s)) := by
  obtain ⟨-, hlt, heq⟩ | ⟨-, hge, -⟩ | ⟨hshort, -⟩ := litToken_cases u l s
  · rw [heq]
    congr
  · omega
  · exact absurd hbits (of_decide_eq_false hshort)

theorem tableAt_moveToFront_zero (t : Table) (i : Fin 256) : tableAt (moveToFront t i) 0 = tableAt t i := rfl

/-- Settles O35: `b` stands at the index that the token names. -/
theorem symTokenAppendsItsByte : Obligations.SymTokenAppendsItsByte := by
  intro s b hperm hbits
  have hpos := tablePosition_lt hperm b
  obtain ⟨u, l, hu, hl, hindex, heq⟩ := exists_litOfIndex_eq (BitVec.ofNat 8 (tablePosition s.mtf b))
  rw [BitVec.toNat_ofNat, Nat.mod_eq_of_lt hpos] at hindex
  have hfit : s.cur + litBits u ≤ payloadBits s := by rw [litBits, payloadBits]; omega
  have hexec : exec (symToken s.mtf b) s = .next (litTake ⟨tablePosition s.mtf b, hpos⟩ (advance (litBits u) s)) := by
    rw [symToken, heq, exec_of_litFields (litFields_litOfFields hl), litToken_of_index hfit (i := ⟨_, hpos⟩) hindex]
  refine ⟨_, hexec, ?_, rfl, ?_, rfl, rfl⟩
  · rw [litTake_out, advance_out, advance_olen, advance_mtf, memRead_memWrite_same, tableAt_tablePosition]
  · rw [litTake_mtf, advance_mtf, tableAt_moveToFront_zero, tableAt_tablePosition]

end Sys2Proof

/-! ## The spellings of one offset (R63) -/

namespace Sys2Proof.Machine

/-- The same state with another cursor. -/
def withCur (c : Nat) (s : State) : State := { s with cur := c }

theorem copyBytes_withCur (c n offset : Nat) :
    ∀ s : State, copyBytes n offset (withCur c s) = withCur c (copyBytes n offset s) := by
  induction n with
  | zero => exact fun _ => rfl
  | succ n ih => exact fun s => ih (append (outByte s (s.olen - offset)) s)

theorem exec_of_copyFields {i : Instr} {header offset len : Nat} (h : copyFields i = some (header, offset, len))
    (s : State) : exec i s = copyToken header offset len s := by
  cases i <;> cases h <;> rfl

/-- What a copy that the payload holds in full does, but for the cursor: no width enters (R109). -/
def copyOutcome (offset len : Nat) (s : State) : State :=
  if offset ≤ s.olen then copyBytes len offset s else { s with err := .invalidOffset, status := .error }

theorem exec_copy {i : Instr} {header offset len : Nat} (h : copyFields i = some (header, offset, len)) {s : State}
    (hbits : s.cur + copyBits header len ≤ 8 * s.plen.toNat) :
    exec i s = .next (withCur (s.cur + copyBits header len) (copyOutcome offset len s)) := by
  rw [exec_of_copyFields h, copyOutcome]
  obtain ⟨-, hle, heq⟩ | ⟨-, hlt, heq⟩ | ⟨hshort, -⟩ := copyToken_cases header offset len s
  · rw [heq, if_pos hle, ← copyBytes_withCur]
    rfl
  · rw [heq, if_neg (Nat.not_le.mpr hlt)]
    rfl
  · exact absurd hbits (of_decide_eq_false hshort)

/-- Settles O38. -/
theorem offsetSpellingsBehaveAlike : Obligations.OffsetSpellingsBehaveAlike := by
  intro s i j h1 h2 offset len hi hj hbits1 hbits2
  refine ⟨_, _, exec_copy hi hbits1, exec_copy hj hbits2, rfl, ?_⟩
  simp only [withCur, copyBits]
  omega

end Sys2Proof.Machine

/-! ## The bit reader at the end of the payload (R70, R71, R73) -/

namespace Sys2Proof

open Machine

theorem readBit_of_ge {s : State} (h : 8 * s.plen.toNat ≤ s.cur) : readBit s = .raised .truncatedStream s := by
  have hbyte : s.plen.toNat ≤ s.cur / 8 := by omega
  rw [readBit, if_pos hbyte]

/-- Settles O11. -/
theorem readBitAdvancesOrFails : Obligations.ReadBitAdvancesOrFails :=
  fun _ => ⟨readBit_of_lt, readBit_of_ge⟩

/-- The bits already read stay consumed, whatever the place and the value the loop has come to (R73). -/
theorem readBitsLoop_of_short (k : Nat) :
    ∀ (i r : Nat) (s : State), s.cur ≤ 8 * s.plen.toNat → 8 * s.plen.toNat < s.cur + k →
      readBitsLoop k i r s = .raised .truncatedStream { s with cur := 8 * s.plen.toNat } := by
  induction k with
  | zero =>
    intro i r s hle hshort
    exact absurd hle (Nat.not_le.mpr hshort)
  | succ k ih =>
    intro i r s hle hshort
    rw [readBitsLoop]
    obtain hlt | hend := Nat.lt_or_eq_of_le hle
    · have hshort' : 8 * s.plen.toNat < s.cur + 1 + k := by omega
      rw [readBit_of_lt hlt, andThen_ok, ih _ _ { s with cur := s.cur + 1 } hlt hshort']
    · rw [readBit_of_ge hend.ge, andThen_raised, ← hend]

/-- Settles O13, by induction on the bits still to be read. -/
theorem shortFieldConsumesTheRest : Obligations.ShortFieldConsumesTheRest :=
  fun s n => readBitsLoop_of_short n 0 0 s

end Sys2Proof

/-! ## The procedures read what the decoder reads (R70, R72, R91, R105)

The decoder takes values off the list of stream bits, the pseudocode reads them bit by bit. `Reading` ties the two: both
come to the same value with as many bits read, or both run out of bits. -/

namespace Sys2Proof

open Machine

/-! ### The stream at the cursor -/

theorem advance_advance (n m : Nat) (s : State) : advance m (advance n s) = advance (n + m) s :=
  congrArg (fun c => { s with cur := c }) (Nat.add_assoc s.cur n m)

theorem bitsLeft_advance (n : Nat) (s : State) : bitsLeft (advance n s) = bitsLeft s - n := by
  rw [bitsLeft, bitsLeft, payloadBits_advance, advance_cur]
  omega

theorem bitsLeft_append (b : Byte) (s : State) : bitsLeft (append b s) = bitsLeft s := rfl

theorem exhaust_advance {n : Nat} {s : State} (h : n ≤ bitsLeft s) : exhaust (advance n s) = exhaust s := by
  rw [exhaust_eq_advance, exhaust_eq_advance, advance_advance, bitsLeft_advance, Nat.add_sub_cancel' h]

/-- The bit at the cursor is the first of the stream, and without one the read fails, changing nothing (R70, R71). -/
theorem readBit_cases (s : State) :
    (0 < bitsLeft s ∧ streamBits s = payloadBit s s.cur :: streamBits (advance 1 s) ∧
      readBit s = .ok (payloadBit s s.cur) (advance 1 s)) ∨
    (streamBits s = [] ∧ readBit s = .raised .truncatedStream (exhaust s)) := by
  obtain hend | hpos := Nat.eq_zero_or_pos (bitsLeft s)
  · have hexhaust : exhaust s = s := by
      rw [exhaust_eq_advance, hend]
      rfl
    refine .inr ⟨List.length_eq_zero_iff.mp ((length_streamBits s).trans hend), ?_⟩
    rw [hexhaust]
    exact readBit_of_ge (Nat.sub_eq_zero_iff_le.mp hend)
  · refine .inl ⟨hpos, ?_, readBit_of_lt (Nat.lt_of_sub_pos hpos)⟩
    rw [streamBits, streamBits, bitsLeft_advance, ← Nat.sub_add_cancel hpos, List.range_succ_eq_map, List.map_cons,
      List.map_map]
    refine congrArg _ (List.map_congr_left fun i _ => ?_)
    rw [Function.comp_apply, advance_cur, Nat.succ_eq_one_add, ← Nat.add_assoc]
    rfl

/-! ### Readings -/

/-- In the state `s` the decoder's reader answers `o` on the bits at the cursor, a procedure answers `r`, and the two
agree: the value and `n` bits read, or `TruncatedStream` with all the bits consumed (R73). -/
inductive Reading {α : Type} (s : State) (o : Option (α × Bits)) (r : Run α) : Prop
  | value (a : α) (n : Nat) (fits : n ≤ bitsLeft s) (bits : o = some (a, streamBits (advance n s)))
      (run : r = .ok a (advance n s))
  | short (bits : o = none) (run : r = .raised .truncatedStream (exhaust s))

namespace Reading

variable {α : Type} {s : State} {o : Option (α × Bits)} {r : Run α}

/-- A reading made after `n` bits, seen from before them. -/
theorem of_advance {n : Nat} (hn : n ≤ bitsLeft s) (h : Reading (advance n s) o r) : Reading s o r := by
  obtain ⟨a, m, hfits, hbits, hrun⟩ | ⟨hbits, hrun⟩ := h
  · rw [bitsLeft_advance] at hfits
    rw [advance_advance] at hbits hrun
    exact .value a (n + m) (by omega) hbits hrun
  · exact .short hbits (by rw [hrun, exhaust_advance hn])

/-- The decoder's answer may be put in another form: the loops hold it joined to their result so far. -/
theorem congr {o' : Option (α × Bits)} (h : Reading s o r) (ho : o' = o) : Reading s o' r := ho ▸ h

end Reading

theorem eq_nil_of_next?_eq_none {bs : Bits} (h : bs.next? = none) : bs = [] := by
  cases bs with
  | nil => rfl
  | cons b bs => cases h

theorem eq_cons_of_next?_eq_some {b : Bool} {bs rest : Bits} (h : bs.next? = some (b, rest)) : bs = b :: rest := by
  cases bs with
  | nil => cases h
  | cons b' bs => cases h; rfl

theorem readBit_reading (s : State) : Reading s (streamBits s).next? (readBit s) := by
  obtain ⟨hpos, hbits, hrun⟩ | ⟨hbits, hrun⟩ := readBit_cases s
  · rw [hbits, hrun]
    exact .value _ 1 hpos rfl rfl
  · rw [hbits, hrun]
    exact .short rfl rfl

/-- The arithmetic of the decoder's field and the bit operations of the loop's. -/
theorem toNat_add_two_mul (b : Bool) (v : Nat) : b.toNat + 2 * v = b.toNat ||| v <<< 1 := by
  rw [Nat.add_comm, Nat.two_pow_add_eq_or_of_lt (i := 1) b.toNat_lt, Nat.or_comm, Nat.shiftLeft_eq, Nat.mul_comm]

/-- A field, read from weight `2^i` on into a result `r` so far (R72). -/
theorem readBitsLoop_reading (k : Nat) : ∀ (i r : Nat) (s : State),
    Reading s ((takeField k (streamBits s)).map fun x => (r ||| x.1 <<< i, x.2)) (readBitsLoop k i r s) := by
  induction k with
  | zero =>
    intro i r s
    exact .value r 0 (Nat.zero_le _) (by rw [takeField, Option.map_some, Nat.zero_shiftLeft, Nat.or_zero]; rfl) rfl
  | succ k ih =>
    intro i r s
    rw [readBitsLoop]
    obtain ⟨hpos, hbits, hrun⟩ | ⟨hbits, hrun⟩ := readBit_cases s
    · rw [hbits, hrun]
      refine .of_advance hpos ((ih (i + 1) _ _).congr ?_)
      rw [takeField, Option.map_map]
      congr 1
      funext x
      rw [Function.comp_apply, toNat_add_two_mul, Nat.shiftLeft_or_distrib, ← Nat.shiftLeft_add, Nat.or_assoc,
        Nat.add_comm 1 i]
    · rw [hbits, hrun]
      exact .short rfl rfl

theorem readBits_reading (n : Nat) (s : State) : Reading s (takeField n (streamBits s)) (readBits n s) :=
  (readBitsLoop_reading n 0 0 s).congr (by simp)

theorem readUnaryLoop_reading (fuel : Nat) : ∀ (u : Nat) (s : State), bitsLeft s < fuel →
    Reading s ((takeUnary (streamBits s)).map fun x => (u + x.1, x.2)) (readUnaryLoop fuel u s) := by
  induction fuel with
  | zero => exact fun _ _ h => absurd h (Nat.not_lt_zero _)
  | succ fuel ih =>
    intro u s hfuel
    rw [readUnaryLoop]
    obtain ⟨hpos, hbits, hrun⟩ | ⟨hbits, hrun⟩ := readBit_cases s
    · rw [hbits, hrun]
      cases payloadBit s s.cur with
      | false => exact .value u 1 hpos rfl rfl
      | true =>
        refine .of_advance hpos ((ih (u + 1) _ (by rw [bitsLeft_advance]; omega)).congr ?_)
        rw [takeUnary, Option.map_map]
        congr 1
        funext x
        rw [Function.comp_apply, Nat.add_comm x.1 1, Nat.add_assoc]
    · rw [hbits, hrun]
      exact .short rfl rfl

theorem readUnary_reading (s : State) : Reading s (takeUnary (streamBits s)) (readUnary s) :=
  (readUnaryLoop_reading _ 0 s (Nat.lt_succ_self _)).congr (by simp)

/-! ### Fields that are not all there -/

theorem length_lt_of_takeField_eq_none {n : Nat} {bs : Bits} (h : takeField n bs = none) : bs.length < n := by
  by_contra hle
  have hlen : (bs.take n).length = n := List.length_take_of_le (Nat.le_of_not_lt hle)
  have hfield := takeField_append (bs.take n) (bs.drop n)
  rw [hlen, List.take_append_drop, h] at hfield
  cases hfield

/-- The length groups, in terms of the field of one group (R55). -/
theorem takeLength_of_field {g : Nat} {bs rest : Bits} (h : takeField 3 bs = some (g, rest)) :
    takeLength bs = if g = 7 then (takeLength rest).map fun r => (7 + r.1, r.2) else some (3 + g, rest) := by
  obtain ⟨hg, rfl⟩ := takeField_eq_some_iff.mp h
  split
  · next hseven => rw [hseven, takeLength_continue]
  · next hlast => exact takeLength_last (by omega) rest

theorem takeLength_of_short {bs : Bits} (h : takeField 3 bs = none) : takeLength bs = none := by
  match bs, length_lt_of_takeField_eq_none h with
  | [], _ | [_], _ | [_, _], _ => rfl

/-- A field that was read took its own number of bits. -/
theorem eq_of_takeField_streamBits {k v n : Nat} {s : State} (hn : n ≤ bitsLeft s)
    (h : takeField k (streamBits s) = some (v, streamBits (advance n s))) : n = k := by
  have hlen := length_of_takeField h
  rw [length_streamBits, length_streamBits, bitsLeft_advance] at hlen
  omega

theorem readLengthLoop_reading (fuel : Nat) : ∀ (c : Nat) (s : State), bitsLeft s < fuel →
    Reading s ((takeLength (streamBits s)).map fun x => (c + x.1, x.2)) (readLengthLoop fuel (3 + c) s) := by
  induction fuel with
  | zero => exact fun _ _ h => absurd h (Nat.not_lt_zero _)
  | succ fuel ih =>
    intro c s hfuel
    rw [readLengthLoop, Config.lenGroupWidth, Config.lenContinue]
    obtain ⟨g, n, hn, hbits, hrun⟩ | ⟨hbits, hrun⟩ := readBits_reading 3 s
    · obtain rfl := eq_of_takeField_streamBits hn hbits
      rw [takeLength_of_field hbits, hrun, andThen_ok]
      split
      · next hseven =>
        subst hseven
        refine .of_advance hn ((ih (c + 7) _ (by rw [bitsLeft_advance]; omega)).congr ?_)
        rw [Option.map_map]
        congr 1
        funext x
        rw [Function.comp_apply, Nat.add_assoc]
      · exact .value _ 3 hn rfl (by rw [Nat.add_left_comm, Nat.add_assoc])
    · rw [takeLength_of_short hbits, hrun]
      exact .short rfl rfl

theorem readLength_reading (s : State) : Reading s (takeLength (streamBits s)) (readLength s) :=
  (readLengthLoop_reading _ 0 s (Nat.lt_succ_self _)).congr (by simp)

/-! ### The raw run

Its procedure appends each byte as it is read, so it is no plain reading (R103). -/

theorem takeRawBody_of_field {v : Nat} {bs rest : Bits} (h : takeField 8 bs = some (v, rest)) :
    takeRawBody bs = if v = 0 then ([], some rest)
      else (BitVec.ofNat 8 v :: (takeRawBody rest).1, (takeRawBody rest).2) := by
  obtain ⟨hv, rfl⟩ := takeField_eq_some_iff.mp h
  rw [takeRawBody_byte (length_fieldBits 8 v), bitsToNat_fieldBits hv]

theorem takeRawBody_of_short {bs : Bits} (h : takeField 8 bs = none) : takeRawBody bs = ([], none) := by
  match bs, length_lt_of_takeField_eq_none h with
  | [], _ | [_], _ | [_, _], _ | [_, _, _], _ | [_, _, _, _], _ | [_, _, _, _, _], _ | [_, _, _, _, _, _], _
  | [_, _, _, _, _, _, _], _ => rfl

/-- In the state `s` the decoder's reader of a raw body answers `o` on the bits at the cursor, a procedure answers `r`,
and the two agree: the data bytes appended, and `n` bits read or `TruncatedStream` with all the bits consumed. -/
inductive RawReading (s : State) (o : List Byte × Option Bits) (r : Run Unit) : Prop
  | value (data : List Byte) (n : Nat) (fits : n ≤ bitsLeft s) (bits : o = (data, some (streamBits (advance n s))))
      (run : r = .ok () (appendAll data (advance n s)))
  | short (data : List Byte) (bits : o = (data, none)) (run : r = .raised .truncatedStream (appendAll data (exhaust s)))

namespace RawReading

variable {s : State} {o : List Byte × Option Bits} {r : Run Unit}

/-- A raw body read after `n` bits, seen from before them. -/
theorem of_advance {n : Nat} (hn : n ≤ bitsLeft s) (h : RawReading (advance n s) o r) : RawReading s o r := by
  obtain ⟨data, m, hfits, hbits, hrun⟩ | ⟨data, hbits, hrun⟩ := h
  · rw [bitsLeft_advance] at hfits
    rw [advance_advance] at hbits hrun
    exact .value data (n + m) (by omega) hbits hrun
  · exact .short data hbits (by rw [hrun, exhaust_advance hn])

/-- The rest of a raw body, after the byte `b` was appended. -/
theorem of_append {b : Byte} (h : RawReading (append b s) o r) : RawReading s (b :: o.1, o.2) r := by
  obtain ⟨data, n, hfits, rfl, hrun⟩ | ⟨data, rfl, hrun⟩ := h
  · exact .value (b :: data) n hfits rfl hrun
  · exact .short (b :: data) rfl hrun

end RawReading

theorem doRawLoop_reading (fuel : Nat) : ∀ s : State, bitsLeft s < fuel →
    RawReading s (takeRawBody (streamBits s)) (doRawLoop fuel s) := by
  induction fuel with
  | zero => exact fun _ h => absurd h (Nat.not_lt_zero _)
  | succ fuel ih =>
    intro s hfuel
    rw [doRawLoop, Config.rawWidth]
    obtain ⟨v, n, hn, hbits, hrun⟩ | ⟨hbits, hrun⟩ := readBits_reading 8 s
    · obtain rfl := eq_of_takeField_streamBits hn hbits
      rw [takeRawBody_of_field hbits, hrun, andThen_ok]
      split
      · exact .value [] 8 hn rfl rfl
      · exact .of_advance hn (.of_append (ih _ (by rw [bitsLeft_append, bitsLeft_advance]; omega)))
    · rw [takeRawBody_of_short hbits, hrun]
      exact .short [] rfl rfl

theorem doRaw_reading (s : State) : RawReading s (takeRawBody (streamBits s)) (doRaw s) :=
  doRawLoop_reading _ s (Nat.lt_succ_self _)

end Sys2Proof

/-! ## The decoded step is the pseudocode (R82, R90, R100, R103, R109)

Both sides are followed along the bits of one token. Wherever a reading runs out of bits, the decoder answers
`truncated` and the procedure raises `TruncatedStream`; where all the bits are there, `exec` and the procedure's last
lines have the same state before them, since the bits read are the token's own. -/

namespace Sys2Proof

open Machine

/-- What the loop makes of a procedure that has come to its end or raised (R82, R136). -/
def runResult : Run Unit → Result
  | .ok _ s => .next s
  | .raised e s => raise e s

theorem pseudocodeStep_of_ne {s : State} (h : s.olen ≠ s.tlen.toNat) :
    pseudocodeStep s = runResult (andThen (readBit s) fun c s => if c then doLit s else doCopyClass s) := by
  rw [pseudocodeStep, if_neg h]
  rfl

/-- What was fetched and what a procedure does have the same effect, if they have where the value is read. -/
theorem Reading.carryOut_eq {α : Type} {s : State} {o : Option (α × Bits)} {r : Run α} {g : α → State → Run Unit}
    (h : Reading s o r) (hshort : o = none → fetch s = .truncated [])
    (hvalue : ∀ a n, n ≤ bitsLeft s → o = some (a, streamBits (advance n s)) →
      carryOut (fetch s) s = runResult (g a (advance n s))) :
    carryOut (fetch s) s = runResult (andThen r g) := by
  obtain ⟨a, n, hn, hbits, hrun⟩ | ⟨hbits, hrun⟩ := h
  · rw [hrun, andThen_ok]
    exact hvalue a n hn hbits
  · rw [hrun, andThen_raised, hshort hbits]
    rfl

/-! ### A token that is there in full -/

theorem six_le_tokenBits (i : Instr) : 6 ≤ tokenBits i := by
  cases i <;> simp only [tokenBits, litBits, copyBits, rawBits, groupCount] <;> omega

/-- The bits read of a complete token are its own, and the payload holds them. -/
theorem bits_of_fetch {s : State} {i : Instr} {n : Nat} (hn : n ≤ bitsLeft s)
    (h : fetch s = .token i (streamBits (advance n s))) : n = tokenBits i ∧ bitsRemain (tokenBits i) s = true := by
  obtain ⟨used, hlen, hstream, -⟩ := decode_readsOnly h
  have hbits := congrArg List.length hstream
  rw [length_streamBits, List.length_append, length_streamBits, bitsLeft_advance, hlen] at hbits
  have hsix := six_le_tokenBits i
  rw [bitsLeft] at hn hbits
  exact ⟨by omega, decide_eq_true (by omega)⟩

/-! ### `LIT` -/

theorem litToken_eq_runResult {u l : Nat} {s : State} (h : bitsRemain (litBits u) s = true) :
    litToken u l s = runResult
      (if hidx : litIndex u l < Config.tableSize then .ok () (litTake ⟨litIndex u l, hidx⟩ (advance (litBits u) s))
      else .raised .indexOutOfRange (advance (litBits u) s)) := by
  obtain ⟨-, hidx, heq⟩ | ⟨-, hidx, heq⟩ | ⟨hshort, -⟩ := litToken_cases u l s
  · rw [heq, dif_pos (show litIndex u l < Config.tableSize from hidx)]
    rfl
  · rw [heq, dif_neg (show ¬ litIndex u l < Config.tableSize from Nat.not_lt.mpr hidx)]
    rfl
  · rw [h] at hshort
    cases hshort

theorem carryOut_eq_doLit {n : Nat} {s : State} (hn : n ≤ bitsLeft s)
    (hfetch : fetch s = decodeLit (streamBits (advance n s))) :
    carryOut (fetch s) s = runResult (doLit (advance n s)) := by
  refine ((readUnary_reading (advance n s)).of_advance hn).carryOut_eq (fun hnone => ?_) fun u n hn hones => ?_
  · rw [hfetch, decodeLit, hnone]
  · refine ((readBits_reading _ (advance n s)).of_advance hn).carryOut_eq (fun hnone => ?_) fun l n hn hfield => ?_
    · rw [hfetch, decodeLit, hones]
      simp only [hnone]
    · have htoken := hfetch.trans (decodeLit_eq_token_iff.mpr ⟨u, _, l, hones, hfield, rfl⟩)
      obtain ⟨hl, -⟩ := takeField_eq_some_iff.mp hfield
      obtain ⟨rfl, hremain⟩ := bits_of_fetch hn htoken
      rw [tokenBits_litOfFields] at hremain ⊢
      rw [htoken, carryOut, exec_of_litFields (litFields_litOfFields hl), litToken_eq_runResult hremain]
      rfl

/-! ### The copy class -/

theorem tokenBits_of_copyFields {i : Instr} {header offset len : Nat} (h : copyFields i = some (header, offset, len)) :
    tokenBits i = copyBits header len := by
  cases i <;> cases h <;> rfl

theorem copyToken_eq_runResult {header offset len : Nat} {s : State}
    (h : bitsRemain (copyBits header len) s = true) :
    copyToken header offset len s = runResult
      (if s.olen < offset then .raised .invalidOffset (advance (copyBits header len) s)
      else .ok () (copyBytes len offset (advance (copyBits header len) s))) := by
  obtain ⟨-, hle, heq⟩ | ⟨-, hlt, heq⟩ | ⟨hshort, -⟩ := copyToken_cases header offset len s
  · rw [heq, if_neg (Nat.not_lt.mpr hle)]
    rfl
  · rw [heq, if_pos hlt]
    rfl
  · rw [h] at hshort
    cases hshort

theorem carryOut_eq_doCopy {n o header : Nat} {mk : Nat → Instr} {s : State} (hn : n ≤ bitsLeft s)
    (hmk : ∀ len, copyFields (mk len) = some (header, o + Config.offsetBias, len))
    (hfetch : fetch s = decodeCopyLength mk (streamBits (advance n s))) :
    carryOut (fetch s) s = runResult (doCopy (o + Config.offsetBias) (advance n s)) := by
  refine ((readLength_reading (advance n s)).of_advance hn).carryOut_eq (fun hnone => ?_) fun len n hn hlen => ?_
  · rw [hfetch, decodeCopyLength, hnone]
  · have htoken := hfetch.trans (decodeCopyLength_eq_token_iff.mpr ⟨len, hlen, rfl⟩)
    obtain ⟨rfl, hremain⟩ := bits_of_fetch hn htoken
    rw [tokenBits_of_copyFields (hmk len)] at hremain ⊢
    rw [htoken, carryOut, exec_of_copyFields (hmk len), copyToken_eq_runResult hremain]
    rfl

theorem carryOut_eq_doRaw {n : Nat} {s : State} (hn : n ≤ bitsLeft s)
    (hfetch : fetch s = decodeRaw (streamBits (advance n s))) :
    carryOut (fetch s) s = runResult (doRaw (advance n s)) := by
  obtain ⟨data, n, hn, hbody, hrun⟩ | ⟨data, hbody, hrun⟩ := (doRaw_reading (advance n s)).of_advance hn
  · have htoken := hfetch.trans (decodeRaw_eq_token_iff.mpr ⟨data, hbody, rfl⟩)
    obtain ⟨rfl, hremain⟩ := bits_of_fetch hn htoken
    rw [hrun, htoken, carryOut]
    exact if_pos hremain
  · rw [hrun, hfetch, decodeRaw, hbody]
    rfl

theorem carryOut_eq_doOffset {n w header : Nat} {mk : BitVec w → Nat → Instr} {s : State} (hn : n ≤ bitsLeft s)
    (hmk : ∀ o len, copyFields (mk o len) = some (header, o.toNat + Config.offsetBias, len))
    (hfetch : fetch s = decodeOffset w (fun o len => mk (BitVec.ofNat w o) len) (streamBits (advance n s))) :
    carryOut (fetch s) s = runResult (andThen (readBits w (advance n s)) fun o s =>
      if w = 10 ∧ o = 0 then doRaw s else doCopy (o + Config.offsetBias) s) := by
  refine ((readBits_reading w (advance n s)).of_advance hn).carryOut_eq (fun hnone => ?_) fun o n hn hfield => ?_
  · rw [hfetch, decodeOffset, hnone]
  · split
    · next hraw => exact carryOut_eq_doRaw hn (hfetch.trans (decodeOffset_of_raw hfield hraw))
    · next hcopy =>
      obtain ⟨ho, -⟩ := takeField_eq_some_iff.mp hfield
      refine carryOut_eq_doCopy (header := header) hn (fun len => ?_)
        (hfetch.trans (decodeOffset_of_copy hfield hcopy))
      rw [hmk, BitVec.toNat_ofNat, Nat.mod_eq_of_lt ho]

theorem andThen_assoc {α β γ : Type} (r : Run α) (f : α → State → Run β) (g : β → State → Run γ) :
    andThen (andThen r f) g = andThen r fun a s => andThen (f a s) g := by
  cases r <;> rfl

theorem carryOut_eq_doCopyClass {n : Nat} {s : State} (hn : n ≤ bitsLeft s)
    (hfetch : fetch s = decodeCopyClass (streamBits (advance n s))) :
    carryOut (fetch s) s = runResult (doCopyClass (advance n s)) := by
  rw [doCopyClass, readWidth, andThen_assoc]
  refine ((readBit_reading (advance n s)).of_advance hn).carryOut_eq (fun hnone => ?_) fun b n hn hbit => ?_
  · rw [hfetch, eq_nil_of_next?_eq_none hnone]
    rfl
  rw [eq_cons_of_next?_eq_some hbit] at hfetch
  cases b with
  | false => exact carryOut_eq_doOffset (mk := .cpy15) hn (fun _ _ => rfl) hfetch
  | true =>
    rw [if_pos rfl, andThen_assoc]
    refine ((readBit_reading (advance n s)).of_advance hn).carryOut_eq (fun hnone => ?_) fun b n hn hbit => ?_
    · rw [hfetch, eq_nil_of_next?_eq_none hnone]
      rfl
    rw [eq_cons_of_next?_eq_some hbit] at hfetch
    cases b with
    | false => exact carryOut_eq_doOffset (mk := .cpy10) hn (fun _ _ => rfl) hfetch
    | true => exact carryOut_eq_doOffset (mk := .cpy5) hn (fun _ _ => rfl) hfetch

/-! ### The step -/

/-- Settles O27: after the same length test, the control bit selects the same procedure. -/
theorem blockStepFollowsPseudocode : Obligations.BlockStepFollowsPseudocode := by
  intro s hbusy
  obtain ⟨hidle, -⟩ | ⟨-, hlen, heq⟩ | ⟨-, hlen, heq⟩ := blockStep_cases s
  · exact absurd hbusy hidle
  · rw [heq, pseudocodeStep, if_pos hlen]
  · rw [heq, pseudocodeStep_of_ne hlen]
    refine (readBit_reading s).carryOut_eq (fun hnone => ?_) fun c n hn hbit => ?_
    · rw [fetch, eq_nil_of_next?_eq_none hnone]
      rfl
    have hfetch : fetch s = decode (c :: streamBits (advance n s)) := by
      rw [fetch, eq_cons_of_next?_eq_some hbit]
    cases c with
    | false => exact carryOut_eq_doCopyClass hn hfetch
    | true => exact carryOut_eq_doLit hn hfetch

end Sys2Proof

/-! ## The decode loop (R82, R86, R87, R88) -/

namespace Sys2Proof

open Machine

/-! ### One turn -/

/-- Settles O22: `exec` is all that a turn does with a complete token, and a token is fetched from what the host's
moves do not touch. -/
theorem stepRunsDecodedToken : Obligations.StepRunsDecodedToken := by
  intro s i rest hbusy hlen hfetch
  have hturn (ms : List HostMove) : blockStep { s with hostMoves := ms } = exec i { s with hostMoves := ms } := by
    have hfetch' : fetch { s with hostMoves := ms } = .token i rest := hfetch
    rw [blockStep, if_pos hbusy, if_neg hlen, hfetch', carryOut]
  refine ⟨fun hmoves => ?_, fun ms hmoves => (step_of_hostMove hmoves).trans (hturn ms)⟩
  obtain ⟨-, heq⟩ | ⟨m, ms, hmoves', -⟩ := step_cases s
  · exact heq.trans (hturn s.hostMoves)
  · cases hmoves.symm.trans hmoves'

/-- Settles O24. -/
theorem lengthTestComesFirst : Obligations.LengthTestComesFirst := by
  intro s hmoves hbusy hlen
  obtain ⟨-, heq⟩ | ⟨m, ms, hmoves', -⟩ := step_cases s
  · rw [heq, blockStep, if_pos hbusy, if_pos hlen]
  · cases hmoves.symm.trans hmoves'

/-- The state after a turn of the block: held, the length reached, or that of a token's progress, with or without a
fault taken there (R82, R136). -/
inductive TurnOutcome (s t : State) : Prop
  | held (idle : s.status ≠ .busy) (eq : t = s)
  | done (busy : s.status = .busy) (reached : s.olen = s.tlen.toNat) (eq : t = { s with status := .done })
  | token (busy : s.status = .busy) (unreached : s.olen ≠ s.tlen.toNat) (progress : Progress s t)
  | fault (busy : s.status = .busy) (unreached : s.olen ≠ s.tlen.toNat) (u : State) (e : Err) (progress : Progress s u)
      (eq : t = { u with err := e, status := .error })

theorem blockStep_outcome {s t : State} (hstep : blockStep s = .next t) : TurnOutcome s t := by
  obtain ⟨hidle, heq⟩ | ⟨hbusy, hlen, heq⟩ | ⟨hbusy, hlen, heq⟩ := blockStep_cases s
  · cases heq.symm.trans hstep
    exact .held hidle rfl
  · cases heq.symm.trans hstep
    exact .done hbusy hlen rfl
  · obtain ⟨u, hp, hend⟩ | ⟨u, e, hp, -, hend⟩ := carryOut_fetch_outcome s
    · cases (heq.trans hend).symm.trans hstep
      exact .token hbusy hlen hp
    · cases ((heq.trans hend).trans (raise_eq e u)).symm.trans hstep
      exact .fault hbusy hlen u e hp rfl

/-- What every turn of the block keeps holds after any number of them. -/
theorem runBlock_keeps {P : State → Prop} (hkeep : ∀ s t, P s → blockStep s = .next t → P t) (k : Nat) :
    ∀ {s : State}, P s → P (runBlock k s) := by
  induction k with
  | zero => exact id
  | succ k ih =>
    intro s h
    obtain ⟨t, hstep⟩ := exists_blockStep_eq_next s
    rw [runBlock_succ_of_next hstep]
    exact ih (hkeep s t h hstep)

theorem runBlock_keepsHostSide (k : Nat) (s : State) : KeepsHostSide s (runBlock k s) :=
  runBlock_keeps (fun _ _ h hstep => h.trans (blockStep_keepsHostSide hstep)) k (.refl s)

/-! ### What a successful decode delivers (R80, R88) -/

/-- `OUT` holds a byte exactly below `OLEN`, and `DONE` is entered at the target length only. -/
structure ExactOutput (s : State) : Prop where
  filled : ∀ a, (memRead s.out a).isSome = true ↔ a < s.olen
  reached : s.status = .done → s.olen = s.tlen.toNat

theorem exactOutput_start (s : State) : ExactOutput (start s) where
  filled a := by simp
  reached := by rintro ⟨⟩

theorem blockStep_keepsExactOutput (s t : State) (h : ExactOutput s) (hstep : blockStep s = .next t) :
    ExactOutput t := by
  cases blockStep_outcome hstep with
  | held idle eq => exact eq ▸ h
  | done busy reached eq => exact eq ▸ ⟨h.filled, fun _ => reached⟩
  | token busy unreached progress =>
    have hstatus : t.status = .busy := progress.keepsStatus.status.trans busy
    exact ⟨progress.out_filled h.filled, fun hdone => by cases hstatus.symm.trans hdone⟩
  | fault busy unreached u e progress eq =>
    exact eq ▸ ⟨progress.out_filled h.filled, by rintro ⟨⟩⟩

/-- Settles O53. -/
theorem doneDeliversExactlyTheTarget : Obligations.DoneDeliversExactlyTheTarget := by
  intro s k hdone
  obtain ⟨hfilled, hreached⟩ := runBlock_keeps blockStep_keepsExactOutput k (exactOutput_start s)
  have hlen : (runBlock k (start s)).olen = s.tlen.toNat := by
    rw [hreached hdone, (runBlock_keepsHostSide k (start s)).tlen, start_tlen]
  exact ⟨hlen, hlen ▸ hfilled⟩

/-! ### Every decode ends (R87)

A turn that leaves the block `BUSY` has read a whole token, so the bits left bound the number of such turns. -/

/-- What was fetched ends without a fault only if it is a complete token, of at least 6 bits. -/
theorem cur_add_six_le_of_carryOut {s t : State} (h : carryOut (fetch s) s = .next t) (hok : t.status ≠ .error) :
    s.cur + 6 ≤ t.cur := by
  cases hfetch : fetch s with
  | token i rest =>
    rw [hfetch] at h
    obtain ⟨hcur, -⟩ := exec_completesAlike i s t h hok
    rw [hcur]
    exact Nat.add_le_add_left (six_le_tokenBits i) _
  | truncated data =>
    rw [hfetch] at h
    exact absurd (status_of_raise h) hok

/-- A turn before the target length is reached takes a fault or reads a token of at least 6 bits. -/
theorem blockStep_error_or_reads {s t : State} (hbusy : s.status = .busy) (hlen : s.olen ≠ s.tlen.toNat)
    (hstep : blockStep s = .next t) :
    t.status = .error ∨ t.status = .busy ∧ s.cur + 6 ≤ t.cur ∧ bitsLeft t + 6 ≤ bitsLeft s := by
  cases blockStep_outcome hstep with
  | held idle eq => exact absurd hbusy idle
  | done busy reached eq => exact absurd reached hlen
  | fault busy unreached u e progress eq => exact .inl (eq ▸ rfl)
  | token busy unreached progress =>
    have hstatus : t.status = .busy := progress.keepsStatus.status.trans busy
    have hok : t.status ≠ .error := by rw [hstatus]; decide
    rw [blockStep, if_pos hbusy, if_neg hlen] at hstep
    have hread : s.cur + 6 ≤ t.cur := cur_add_six_le_of_carryOut hstep hok
    have hend : t.cur ≤ max s.cur (payloadBits s) := progress.cur_le_max
    have hbits : payloadBits t = payloadBits s := by rw [payloadBits, payloadBits, progress.keepsHostSide.plen]
    refine .inr ⟨hstatus, hread, ?_⟩
    rw [bitsLeft, bitsLeft, hbits]
    omega

/-- The decode makes `k` turns that each complete a token, and then one last turn that ends it. -/
structure EndsAfter (k : Nat) (s : State) : Prop where
  busy : ∀ j, j ≤ k → (runBlock j s).status = .busy ∧ s.cur + 6 * j ≤ (runBlock j s).cur
  ended : (runBlock (k + 1) s).status = .done ∨ (runBlock (k + 1) s).status = .error

theorem endsAfter_zero {s t : State} (hbusy : s.status = .busy) (hstep : blockStep s = .next t)
    (hended : t.status = .done ∨ t.status = .error) : EndsAfter 0 s where
  busy j hj := by
    obtain rfl := Nat.le_zero.mp hj
    exact ⟨hbusy, le_rfl⟩
  ended := by rwa [runBlock_succ_of_next hstep]

theorem endsAfter_succ {k : Nat} {s t : State} (hbusy : s.status = .busy) (hstep : blockStep s = .next t)
    (hread : s.cur + 6 ≤ t.cur) (h : EndsAfter k t) : EndsAfter (k + 1) s where
  busy j hj := by
    cases j with
    | zero => exact ⟨hbusy, le_rfl⟩
    | succ j =>
      obtain ⟨hstatus, hcur⟩ := h.busy j (Nat.le_of_succ_le_succ hj)
      rw [runBlock_succ_of_next hstep]
      exact ⟨hstatus, by omega⟩
  ended := by
    rw [runBlock_succ_of_next hstep]
    exact h.ended

theorem exists_endsAfter {s : State} (hbusy : s.status = .busy) : ∃ k, 6 * k ≤ bitsLeft s ∧ EndsAfter k s := by
  induction hleft : bitsLeft s using Nat.strong_induction_on generalizing s with
  | h left ih =>
    obtain ⟨t, hstep⟩ := exists_blockStep_eq_next s
    by_cases hlen : s.olen = s.tlen.toNat
    · have hdone : t.status = .done := by
        rw [blockStep, if_pos hbusy, if_pos hlen] at hstep
        cases hstep
        rfl
      exact ⟨0, Nat.zero_le _, endsAfter_zero hbusy hstep (.inl hdone)⟩
    · obtain herror | ⟨hbusy', hread, hless⟩ := blockStep_error_or_reads hbusy hlen hstep
      · exact ⟨0, Nat.zero_le _, endsAfter_zero hbusy hstep (.inr herror)⟩
      · obtain ⟨k, hk, hends⟩ := ih (bitsLeft t) (by omega) hbusy' rfl
        exact ⟨k + 1, by omega, endsAfter_succ hbusy hstep hread hends⟩

/-- Settles O50. -/
theorem everyDecodeEnds : Obligations.EveryDecodeEnds := by
  intro s
  obtain ⟨k, hk, hends⟩ := exists_endsAfter (start_status s)
  have hleft : bitsLeft (start s) = 8 * s.plen.toNat := rfl
  refine ⟨k, by omega, fun j hj => ?_, hends.ended⟩
  obtain ⟨hbusy, hcur⟩ := hends.busy j hj
  rw [start_cur, Nat.zero_add] at hcur
  exact ⟨hbusy, hcur⟩

/-! ### Overshoot (R85, R86) -/

/-- The output has passed the target length, and the decode has not succeeded. -/
structure Overshoot (s : State) : Prop where
  passed : s.tlen.toNat < s.olen
  notDone : s.status ≠ .done

/-- `OLEN` never decreases, so the length test fails at every later boundary. -/
theorem blockStep_keepsOvershoot (s t : State) (h : Overshoot s) (hstep : blockStep s = .next t) : Overshoot t := by
  obtain ⟨-, holen, -⟩ := cursorAndOutputOnlyGrow s t hstep
  have hpassed : t.tlen.toNat < t.olen := by
    rw [(blockStep_keepsHostSide hstep).tlen]
    exact h.passed.trans_le holen
  refine ⟨hpassed, ?_⟩
  cases blockStep_outcome hstep with
  | held idle eq => exact eq ▸ h.notDone
  | done busy reached eq => exact absurd reached h.passed.ne'
  | token busy unreached progress => rw [progress.keepsStatus.status]; exact h.notDone
  | fault busy unreached u e progress eq => rw [eq]; rintro ⟨⟩

/-- Settles O49: the decode ends, and it cannot end in `DONE`. -/
theorem overshootEndsInFault : Obligations.OvershootEndsInFault := by
  intro s hbusy hpassed
  have hnotDone (k : Nat) : (runBlock k s).status ≠ .done :=
    (runBlock_keeps blockStep_keepsOvershoot k ⟨hpassed, by rw [hbusy]; decide⟩).notDone
  obtain ⟨k, -, hends⟩ := exists_endsAfter hbusy
  exact ⟨hnotDone, k + 1, hends.ended.resolve_left (hnotDone (k + 1))⟩

end Sys2Proof

/-! ## The table operation (R93, R94, R95) -/

namespace Sys2Proof

open Machine

/-! ### Where the entries go -/

theorem getElem?_moveToFront_succ {t : Table} {i : Fin 256} {j : Nat} (h : j < i.val) :
    (moveToFront t i).entries[j + 1]? = t.entries[j]? := by
  rw [moveToFront_entries, List.getElem?_cons_succ, List.getElem?_eraseIdx_of_lt h]

theorem getElem?_moveToFront_of_gt {t : Table} {i : Fin 256} {j : Nat} (h : i.val < j) :
    (moveToFront t i).entries[j]? = t.entries[j]? := by
  obtain ⟨j, rfl⟩ := Nat.exists_eq_succ_of_ne_zero (Nat.ne_zero_of_lt h)
  rw [moveToFront_entries, List.getElem?_cons_succ, List.getElem?_eraseIdx_of_ge (Nat.le_of_lt_succ h)]

/-- Settles O32. -/
theorem mtfTakeMovesEntries : Obligations.MtfTakeMovesEntries :=
  fun t i => ⟨tableAt_eq t i, rfl, fun _ => getElem?_moveToFront_succ, fun _ => getElem?_moveToFront_of_gt⟩

theorem moveToFront_zero (t : Table) : moveToFront t 0 = t := by
  ext1
  have hrest : t.entries.eraseIdx 0 = t.entries.drop 1 := List.eraseIdx_zero.trans List.drop_one.symm
  exact (congrArg _ hrest).trans (List.getElem_cons_drop (by rw [t.size]; decide))

theorem tableAt_moveToFront_one {i : Fin 256} (h : 1 ≤ i.val) (t : Table) :
    tableAt (moveToFront t i) 1 = tableAt t 0 := by
  have hmoved : (moveToFront t i).entries[1]? = t.entries[0]? := getElem?_moveToFront_succ h
  exact Option.some.inj ((tableAt_eq _ 1).symm.trans (hmoved.trans (tableAt_eq t 0)))

/-- Settles O34. -/
theorem mtfTakeCornerCases : Obligations.MtfTakeCornerCases := by
  intro t
  refine ⟨?_, fun j hj => getElem?_moveToFront_succ hj, fun i hi => tableAt_moveToFront_one hi t, fun i => ?_⟩
  · rw [mtfTake, moveToFront_zero]
  · rw [mtfTake_snd, mtfTake, moveToFront_zero, tableAt_moveToFront_zero]

/-! ### The table during a decode -/

theorem blockStep_keepsPermutation (s t : State) (h : Table.isPermutation s.mtf) (hstep : blockStep s = .next t) :
    Table.isPermutation t.mtf := by
  cases blockStep_outcome hstep with
  | held idle eq => exact eq ▸ h
  | done busy reached eq => exact eq ▸ h
  | token busy unreached progress => exact progress.table_permutation h
  | fault busy unreached u e progress eq => exact eq ▸ progress.table_permutation h

/-- Settles O33: START writes the identity, and every turn of the block keeps a permutation. -/
theorem mtfTakeKeepsPermutation : Obligations.MtfTakeKeepsPermutation :=
  ⟨moveToFront_perm, fun _ k => runBlock_keeps blockStep_keepsPermutation k identityTable_isPermutation,
    fun _ h b => ⟨⟨_, tablePosition_lt h b⟩, tableAt_tablePosition _⟩⟩

end Sys2Proof

/-! ## The MTF literal (R90, R91, R97) -/

namespace Sys2Proof

open Machine

/-! ### The unary count -/

theorem takeUnary_replicate_true (u : Nat) : takeUnary (List.replicate u true) = none := by
  induction u with
  | zero => rfl
  | succ u ih => rw [List.replicate_succ, takeUnary, ih, Option.map_none]

/-- Settles O14: the count is what the decoder takes off the bits at the cursor, and the lengths give the bits read. -/
theorem unaryCountsOnesToTheZero : Obligations.UnaryCountsOnesToTheZero := by
  refine fun s u => ⟨fun rest hbits => ?_, fun hcur hbits => ?_⟩
  · have hcount : takeUnary (streamBits s) = some (u, rest) := takeUnary_eq_some_iff.mpr hbits
    obtain ⟨a, n, hfits, hread, hrun⟩ | ⟨hread, -⟩ := readUnary_reading s
    · cases hread.symm.trans hcount
      have hlen : (streamBits s).length = u + ((streamBits (advance n s)).length + 1) := by
        rw [hbits, List.length_append, List.length_replicate, List.length_cons]
      rw [length_streamBits, length_streamBits, bitsLeft_advance] at hlen
      obtain rfl : n = u + 1 := by omega
      exact hrun
    · cases hread.symm.trans hcount
  · have hcount : takeUnary (streamBits s) = none := hbits ▸ takeUnary_replicate_true u
    obtain ⟨a, n, -, hread, -⟩ | ⟨-, hrun⟩ := readUnary_reading s
    · cases hread.symm.trans hcount
    · rw [hrun, exhaust, payloadBits, max_eq_right hcur]

/-! ### The two ends of a complete token -/

theorem moveToFront_entries_eq_append (t : Table) (i : Fin 256) :
    (moveToFront t i).entries = t.entries[i.val]?.toList ++ t.entries.take i ++ t.entries.drop (i + 1) := by
  rw [moveToFront_entries, tableAt_eq, List.eraseIdx_eq_take_drop_succ]
  rfl

/-- Reading `n` bits and taking the byte at `i` is the whole effect of a `LIT` (R90, R93). -/
theorem litTake_advance_litEffect (n : Nat) (i : Fin 256) (s : State) : LitEffect n i s (litTake i (advance n s)) where
  cur := rfl
  olen := rfl
  appended := by rw [litTake_out, advance_out, advance_olen, memRead_memWrite_same, advance_mtf, tableAt_eq]
  table := moveToFront_entries_eq_append s.mtf i
  out p hp := by rw [litTake_out, advance_out, advance_olen, memRead_memWrite_other (by omega)]
  status := ⟨rfl, rfl⟩
  host := (advance_keepsHostSide n s).trans (litTake_keepsHostSide i _)

theorem litToken_litEffect {u l i : Nat} {s : State} (hbits : s.cur + litBits u ≤ payloadBits s)
    (hindex : litIndex u l = i) (hi : i < 256) : ∃ t, litToken u l s = .next t ∧ LitEffect (litBits u) i s t :=
  ⟨_, litToken_of_index hbits (i := ⟨i, hi⟩) hindex, litTake_advance_litEffect _ ⟨i, hi⟩ s⟩

/-- Settles O29: each class has its own base, and its fields keep the index below 256. -/
theorem litAppendsAndMovesToFront : Obligations.LitAppendsAndMovesToFront := fun _ =>
  ⟨fun l h => litToken_litEffect (u := 0) h rfl (by omega),
    fun l h => litToken_litEffect (u := 1) h rfl (by omega),
    fun l h => litToken_litEffect (u := 2) h rfl (by omega),
    fun l h => litToken_litEffect (u := 3) h rfl (by omega),
    fun l h hl => litToken_litEffect (u := 4) h rfl (by omega)⟩

/-- A `LIT` whose index the table does not have takes its fault once all its bits are read (R133, R139). -/
theorem litToken_of_index_ge {u l : Nat} {s : State} (hbits : s.cur + litBits u ≤ payloadBits s)
    (hindex : 256 ≤ litIndex u l) : litToken u l s = raise .indexOutOfRange (advance (litBits u) s) := by
  obtain ⟨-, hlt, -⟩ | ⟨-, -, heq⟩ | ⟨hshort, -⟩ := litToken_cases u l s
  · omega
  · exact heq
  · exact absurd hbits (of_decide_eq_false hshort)

/-- The class base of five or more ones is beyond the table (R97). -/
theorem le_litIndex_of_five_le {u : Nat} (h : 5 ≤ u) (l : Nat) : 256 ≤ litIndex u l := by
  have hindex := litIndex_add_sixteen u l
  have hpow : 2 ^ 9 ≤ 2 ^ (4 + u) := Nat.pow_le_pow_right (by decide) (by omega)
  omega

/-- Settles O31. -/
theorem litIllAlwaysFaults : Obligations.LitIllAlwaysFaults :=
  fun _ _ l hu hbits => ⟨.indexOutOfRange, litToken_of_index_ge hbits (le_litIndex_of_five_le hu l), .inl rfl⟩

end Sys2Proof

/-! ## What a copy and a raw run append (R103, R112) -/

namespace Sys2Proof

open Machine

/-! ### The copy loop -/

theorem copyFields_offset_pos {i : Instr} {header offset len : Nat} (h : copyFields i = some (header, offset, len)) :
    0 < offset := by
  cases i <;> cases h <;> exact Nat.succ_pos _

/-- Each turn of the copy loop rotates the last `offset` bytes of the output: the byte it appends is the front of that
window, so the window after the turn is the one before it, read one place further on (R112). -/
theorem outByte_append_window {offset : Nat} {s : State} (hpos : 0 < offset) (hle : offset ≤ s.olen) (k : Nat) :
    outByte (append (outByte s (s.olen - offset)) s) (s.olen + 1 - offset + k % offset) =
      outByte s (s.olen - offset + (k + 1) % offset) := by
  have hk : k % offset < offset := Nat.mod_lt k hpos
  have hsucc : (k + 1) % offset = (k % offset + 1) % offset := (Nat.mod_add_mod k offset 1).symm
  rw [outByte_append, hsucc]
  obtain hwrap | hnext : k % offset + 1 = offset ∨ k % offset + 1 < offset := by omega
  · rw [if_pos (by omega), hwrap, Nat.mod_self, Nat.add_zero]
  · rw [if_neg (by omega), Nat.mod_eq_of_lt hnext]
    congr 1
    omega

theorem memRead_copyBytes {offset : Nat} (hpos : 0 < offset) (n : Nat) :
    ∀ {s : State}, offset ≤ s.olen → ∀ j, j < n →
      memRead (copyBytes n offset s).out (s.olen + j) = some (outByte s (s.olen - offset + j % offset)) := by
  induction n with
  | zero => exact fun _ j hj => absurd hj (Nat.not_lt_zero j)
  | succ n ih =>
    intro s hle j hj
    rw [copyBytes]
    cases j with
    | zero =>
      obtain ⟨-, hout, -⟩ := copyBytes_frame n offset (append (outByte s (s.olen - offset)) s)
      rw [hout _ (by rw [append_olen]; omega), append_out, Nat.add_zero, memRead_memWrite_same, Nat.zero_mod,
        Nat.add_zero]
    | succ k =>
      have hrest := ih (s := append (outByte s (s.olen - offset)) s) (by rw [append_olen]; omega) k (by omega)
      rw [append_olen, outByte_append_window hpos hle] at hrest
      rw [← hrest, Nat.add_right_comm, Nat.add_assoc]

/-- Reading `bits` bits and running the copy loop is the whole effect of a copy (R109, R112). -/
theorem copyBytes_copyEffect {offset : Nat} {s : State} (hpos : 0 < offset) (hle : offset ≤ s.olen) (bits n : Nat) :
    CopyEffect bits offset n s (withCur (s.cur + bits) (copyBytes n offset s)) := by
  obtain ⟨holen, hout, -, hmtf, hstatus, hhost⟩ := copyBytes_frame n offset s
  exact {
    cur := rfl
    olen := holen
    appended := memRead_copyBytes hpos n hle
    table := hmtf
    out := hout
    status := { hstatus with }
    host := { hhost with } }

/-- Settles O36, by the rotation of the copy's window. -/
theorem copyAppendsRepeatedOutput : Obligations.CopyAppendsRepeatedOutput := by
  intro s i header offset len hi hbits hle
  refine ⟨_, exec_copy hi hbits, ?_⟩
  rw [copyOutcome, if_pos hle]
  exact copyBytes_copyEffect (copyFields_offset_pos hi) hle _ _

/-! ### The raw run -/

/-- Reading `bits` bits and appending the data bytes is the whole effect of a `RAW` (R103). -/
theorem appendAll_advance_rawEffect (bits : Nat) (data : List Byte) (s : State) :
    RawEffect bits data s (appendAll data (advance bits s)) := by
  obtain ⟨holen, happended, hout, hcur, hmtf, hstatus, hhost⟩ := appendAll_spec data (advance bits s)
  exact {
    cur := hcur
    olen := holen
    appended := happended
    table := hmtf
    out := hout
    status := { hstatus with }
    host := (advance_keepsHostSide bits s).trans hhost }

/-- Settles O39: a `RAW` makes no check but that of its bits. -/
theorem rawAppendsItsData : Obligations.RawAppendsItsData := by
  intro s data hbits
  obtain ⟨-, heq⟩ | ⟨hshort, -⟩ := execRaw_cases data s
  · exact ⟨_, heq, appendAll_advance_rawEffect _ data s⟩
  · exact absurd hbits (of_decide_eq_false hshort)

end Sys2Proof

/-! ## The host's commands (R120, R121, R123, R125, R126) -/

namespace Sys2Proof.Machine

/-! ### Power-on reset and START -/

/-- Settles O2. -/
theorem powerOnResetsFromAnyState : Obligations.PowerOnResetsFromAnyState := by
  intro s ms hm
  exact ⟨powerOnReset { s with hostMoves := ms }, step_of_hostMove hm, rfl, rfl, rfl, rfl, rfl, rfl,
    fun a => ⟨memRead_nil a, memRead_nil a⟩, rfl⟩

theorem writeRegister_cmd_odd {v : Nat} (hv : v % 2 = 1) {s : State} (hidle : s.status ≠ .busy) :
    writeRegister 0 v s = .next (start s) := by
  rw [writeRegister, if_pos ⟨hv, hidle⟩]

theorem writeRegister_cmd_busy {s : State} (hbusy : s.status = .busy) (v : Nat) : writeRegister 0 v s = .next s := by
  rw [writeRegister, if_neg fun h => h.2 hbusy]

/-- The identity table holds each position's own number (R17). -/
theorem toNat_tableAt_identityTable (i : Fin 256) : (tableAt identityTable i).toNat = i.val := by
  simp only [tableAt, identityTable_entries, List.getElem_map, List.getElem_range, BitVec.toNat_ofNat]
  exact Nat.mod_eq_of_lt i.isLt

/-- Settles O3. -/
theorem startBeginsFreshDecode : Obligations.StartBeginsFreshDecode := by
  intro s v ms hm hv hidle
  have hstep : step s = .next (start { s with hostMoves := ms }) :=
    (step_of_hostMove hm).trans (writeRegister_cmd_odd (s := { s with hostMoves := ms }) hv hidle)
  exact ⟨_, hstep, rfl, rfl, memRead_nil, toNat_tableAt_identityTable, rfl, rfl, rfl, rfl, rfl, rfl⟩

/-! ### A running decode -/

/-- While `BUSY`, a host move that is neither power-on reset nor the block's turn can change only what the host last
read and the counter of the free values. -/
theorem hostStep_busy_frame {m : HostMove} {s t : State} (hbusy : s.status = .busy) (hpower : m ≠ .powerOn)
    (hyield : m ≠ .yield) (hstep : hostStep m s = .next t) : ∃ v d, t = { s with readData := v, draws := d } := by
  cases m with
  | writeReg n v => exact ⟨s.readData, s.draws, writeRegister_busy hbusy hstep⟩
  | readReg n =>
    obtain ⟨v, -, heq⟩ | ⟨-, heq⟩ := readRegister_cases n s
    · cases heq.symm.trans hstep
      exact ⟨v, s.draws, rfl⟩
    · cases heq.symm.trans hstep
  | writePayload a b =>
    obtain ⟨-, heq⟩ | ⟨-, -, heq⟩ | ⟨-, hidle, -⟩ := writePayloadWindow_cases a b s
    · cases heq.symm.trans hstep
    · cases heq.symm.trans hstep
    · exact absurd hbusy hidle
  | readResult a =>
    obtain ⟨v, d, heq⟩ := readResultWindow_frame a s
    cases hstep
    exact ⟨v, d, heq⟩
  | powerOn => exact absurd rfl hpower
  | yield => exact absurd rfl hyield

/-- Settles O4: neither field that a move can change belongs to the decode. -/
theorem runningDecodeIsUndisturbed : Obligations.RunningDecodeIsUndisturbed := by
  intro s m ms hm hbusy
  refine ⟨?start, fun hpower hyield t hstep => ?other⟩
  case start =>
    rintro v rfl
    exact (step_of_hostMove hm).trans (writeRegister_cmd_busy (s := { s with hostMoves := ms }) hbusy v)
  case other =>
    have hmove : hostStep m { s with hostMoves := ms } = .next t := (step_of_hostMove hm).symm.trans hstep
    obtain ⟨v, d, rfl⟩ := hostStep_busy_frame (s := { s with hostMoves := ms }) hbusy hpower hyield hmove
    exact ⟨rfl, rfl, rfl, rfl⟩

/-! ### The result window -/

theorem readResultWindow_of_result {a : Nat} {b : Byte} {s : State} (hdone : s.status = .done)
    (htlen : a < s.tlen.toNat) (holen : a < s.olen) (hb : memRead s.out a = some b) :
    readResultWindow a s = { s with readData := b.toNat } := by
  rw [readResultWindow, if_pos ⟨hdone, htlen, holen⟩, outByte, hb, Option.getD_some]

theorem readResultWindow_of_not_done {s : State} (h : s.status ≠ .done) (a : Nat) : readResultWindow a s =
    { s with readData := (Config.unspecifiedRead s.draws).toNat, draws := s.draws + 1 } := by
  rw [readResultWindow, if_neg fun hresult => h hresult.1]

/-- Settles O7: the invariant fills `OUT` below `OLEN`, so at `DONE` the window meets a byte. -/
theorem resultWindowShowsOnlyResults : Obligations.ResultWindowShowsOnlyResults := by
  intro s a ms hm
  refine ⟨fun hinv hdone hlen ha => ?_, fun hother => ?_⟩
  · have holen : a < s.olen := hlen ▸ ha
    obtain ⟨b, hb⟩ := Option.isSome_iff_exists.mp ((hinv.out_filled a).mpr holen)
    refine ⟨b, hb, (step_of_hostMove hm).trans (congrArg Host.Outcome.next ?_)⟩
    exact readResultWindow_of_result (s := { s with hostMoves := ms }) hdone ha holen hb
  · refine (step_of_hostMove hm).trans (congrArg Host.Outcome.next ?_)
    exact readResultWindow_of_not_done (s := { s with hostMoves := ms }) hother a

/-! ### The block's turn (R126) -/

/-- Settles O26. -/
theorem blockIsNeverStuck : Obligations.BlockIsNeverStuck := exists_blockStep_eq_next

theorem step_of_no_hostMove {s : State} (h : s.hostMoves = []) : step s = blockStep s := by
  rw [step, turn, h]

/-- Settles O25. -/
theorem idleBlockHoldsState : Obligations.IdleBlockHoldsState := by
  intro s hmoves hidle
  rw [step_of_no_hostMove hmoves, blockStep, if_neg hidle]

/-! ### The whole transaction (R153, R154) -/

/-- The same state with other moves of the host to come. -/
def withHostMoves (ms : List HostMove) (s : State) : State := { s with hostMoves := ms }

section
/-! The moves of a transaction, each with any moves after it. -/

variable {s : State} (hidle : s.status ≠ .busy)
include hidle

theorem hostStep_writePayload {a : Nat} (ha : a ≤ 65534) (b : Byte) (ms : List HostMove) :
    hostStep (.writePayload a b) (withHostMoves ms s) =
      .next (withHostMoves ms { s with payload := memWrite s.payload a b }) :=
  writePayloadWindow_of_le (s := withHostMoves ms s) ha hidle b

theorem hostStep_writePlen (v : Nat) (ms : List HostMove) : hostStep (.writeReg 3 v) (withHostMoves ms s) =
    .next (withHostMoves ms { s with plen := BitVec.ofNat 16 v }) :=
  writeRegister_plen (s := withHostMoves ms s) hidle v

theorem hostStep_writeTlen (v : Nat) (ms : List HostMove) : hostStep (.writeReg 4 v) (withHostMoves ms s) =
    .next (withHostMoves ms { s with tlen := BitVec.ofNat 16 v }) :=
  writeRegister_tlen (s := withHostMoves ms s) hidle v

theorem hostStep_start (ms : List HostMove) : hostStep (.writeReg 0 1) (withHostMoves ms s) =
    .next (withHostMoves ms (start s)) :=
  writeRegister_cmd_odd (s := withHostMoves ms s) rfl hidle

end

/-- A run whose first step is a host move that completes goes on with the moves after it. -/
theorem run_hostMove {m : HostMove} {ms : List HostMove} {s t : State}
    (h : hostStep m (withHostMoves ms s) = .next (withHostMoves ms t)) (k : Nat) :
    Host.Core.run Sys2Proof.core (k + 1) (withHostMoves (m :: ms) s) =
      Host.Core.run Sys2Proof.core k (withHostMoves ms t) := by
  have hstep : Sys2Proof.core.step (withHostMoves (m :: ms) s) = .next (withHostMoves ms t) :=
    (step_of_hostMove (s := withHostMoves (m :: ms) s) rfl).trans h
  simp only [Host.Core.run, hstep]

/-- The host's writes of a payload all complete while the block is not `BUSY`, and together they store its bytes in
order (R24). -/
theorem run_payloadMoves (payload : List Byte) (ms : List HostMove) (k : Nat) :
    ∀ (a : Nat) {s : State}, s.status ≠ .busy → a + payload.length ≤ 65535 →
      Host.Core.run Sys2Proof.core (payload.length + k) (withHostMoves (payloadMoves a payload ++ ms) s) =
        Host.Core.run Sys2Proof.core k (withHostMoves ms { s with payload := storeBytes a payload s.payload }) := by
  induction payload with
  | nil =>
    intro a s _ _
    rw [List.length_nil, Nat.zero_add]
    rfl
  | cons b bs ih =>
    intro a s hidle hfits
    rw [List.length_cons] at hfits ⊢
    rw [Nat.add_right_comm]
    have hwrite := hostStep_writePayload hidle (by omega : a ≤ 65534) b (payloadMoves (a + 1) bs ++ ms)
    exact (run_hostMove hwrite _).trans
      (ih (a + 1) (s := { s with payload := memWrite s.payload a b }) hidle (by omega))

/-- The three register writes that end a transaction set the two lengths and START the block. -/
theorem run_lengthsAndStart (plen tlen : Nat) {s : State} (hidle : s.status ≠ .busy) :
    Host.Core.run Sys2Proof.core 3 (withHostMoves [.writeReg 3 plen, .writeReg 4 tlen, .writeReg 0 1] s) =
      .next (withHostMoves []
        (start { s with plen := BitVec.ofNat 16 plen, tlen := BitVec.ofNat 16 tlen })) := by
  rw [run_hostMove (hostStep_writePlen hidle plen _) 2, run_hostMove (hostStep_writeTlen ?_ tlen _) 1,
    run_hostMove (hostStep_start ?_ _) 0]
  · rfl
  all_goals exact hidle

/-- Settles O10: the payload's writes store it, and START keeps what they and the length writes have set. -/
theorem transactionLoadsAndStarts : Obligations.TransactionLoadsAndStarts := by
  intro s target payload hidle hplen htlen
  have hrun := (run_payloadMoves payload [.writeReg 3 payload.length, .writeReg 4 target, .writeReg 0 1] 3 0 hidle
    (by omega)).trans (run_lengthsAndStart payload.length target hidle)
  refine ⟨_, hrun, rfl, rfl, rfl, rfl, rfl, ?plen, ?tlen, fun a ha => ?byte⟩
  case plen => exact Nat.mod_eq_of_lt (Nat.lt_succ_of_le hplen)
  case tlen => exact Nat.mod_eq_of_lt (Nat.lt_succ_of_le htlen)
  case byte =>
    have hread := memRead_storeBytes payload s.payload 0 ha
    rwa [Nat.zero_add] at hread

end Sys2Proof.Machine

/-! ## A token that the payload has too few bits for (R73, R103, R131, R141) -/

namespace Sys2Proof

open Machine

/-! ### Its meaning -/

theorem litToken_of_short {u : Nat} {s : State} (h : bitsRemain (litBits u) s = false) (l : Nat) :
    litToken u l s = raise .truncatedStream (exhaust s) :=
  if_neg (Bool.eq_false_iff.mp h)

theorem copyToken_of_short {header len : Nat} {s : State} (h : bitsRemain (copyBits header len) s = false)
    (offset : Nat) : copyToken header offset len s = raise .truncatedStream (exhaust s) :=
  if_neg (Bool.eq_false_iff.mp h)

/-- Whether its bits are there is what every token checks first (R139). -/
theorem exec_of_short {i : Instr} {s : State} (h : bitsRemain (tokenBits i) s = false) :
    exec i s = raise .truncatedStream (appendAll (dataReadBeforeEnd i s) (exhaust s)) := by
  cases i with
  | litU0 | litU1 | litU2 | litU3 | litU4 | litIll => exact litToken_of_short h _
  | cpy5 | cpy10 | cpy15 => exact copyToken_of_short h _
  | raw data => exact if_neg (Bool.eq_false_iff.mp h)

/-- Reading all the bits that are left, appending the data bytes and taking the fault is the whole effect (R136). -/
theorem raise_truncatedEffect {s : State} (hcur : s.cur ≤ 8 * s.plen.toNat) (shown : Prop) (data : List Byte) :
    ∃ t, raise .truncatedStream (appendAll data (exhaust s)) = .next t ∧ TruncatedEffect shown data s t := by
  obtain ⟨holen, happended, hout, hc, hmtf, -, hhost⟩ := appendAll_spec data (exhaust s)
  exact ⟨_, raise_eq _ _, {
    status := rfl
    err := .inl rfl
    cur := hc.trans (max_eq_right hcur)
    olen := holen
    appended := happended
    table := hmtf
    out := hout
    host := { (exhaust_keepsHostSide s).trans hhost with } }⟩

/-- Settles O41: every row has the same fault, and `RAW` alone has data bytes to append before it. -/
theorem everyTokenCutShortFaults : Obligations.EveryTokenCutShortFaults := by
  intro i s hcur hshort
  have hbits : bitsRemain (tokenBits i) s = false := decide_eq_false (Nat.not_le.mpr hshort)
  rw [exec_of_short hbits]
  exact raise_truncatedEffect hcur _ _

/-- Settles O23: the decoder's answer already holds the data bytes to append. -/
theorem cutTokenTakesTruncatedStream : Obligations.CutTokenTakesTruncatedStream := by
  intro s data hmoves hbusy hlen hcur hfetch
  rw [step_of_no_hostMove hmoves, blockStep, if_pos hbusy, if_neg hlen, hfetch]
  exact raise_truncatedEffect hcur _ data

/-! ### The data bytes that the decoder reports

They are the first ones of the token that the bits begin, as many as the bits hold in full. -/

/-- The data bytes of a `RAW`; no other token has any. -/
def rawData : Instr → List Byte
  | .raw data => data
  | _ => []

theorem dataReadBeforeEnd_eq (i : Instr) (s : State) :
    dataReadBeforeEnd i s = (rawData i).take ((bitsLeft s - 13) / 8) := by
  cases i with
  | raw data => rfl
  | litU0 | litU1 | litU2 | litU3 | litU4 | litIll | cpy5 | cpy10 | cpy15 => exact List.take_nil.symm

theorem rawData_litOfFields (u l : Nat) : rawData (litOfFields u l) = [] := by
  match u with
  | 0 | 1 | 2 | 3 | 4 => rfl
  | u + 5 => rfl

/-- Whatever token more bits complete, a reader that runs out after `n` bits of it reports those of its data bytes that
end within these bits: the first one ends 21 bits into the token, and then one every 8 (R103). -/
def ReportsData (n : Nat) (p : Bits → DecodeResult) (bs : Bits) : Prop :=
  ∀ more data i rest, p bs = .truncated data → p (bs ++ more) = .token i rest → data = (rawData i).take ((n - 13) / 8)

/-- One reader hands over to another one. -/
theorem ReportsData.of_eq {n : Nat} {p q : Bits → DecodeResult} {bs bs' : Bits} (h : ReportsData n p bs)
    (hq : ∀ more, q (bs' ++ more) = p (bs ++ more)) : ReportsData n q bs' := by
  intro more data i rest hcut htoken
  have hnow : q bs' = p bs := by simpa only [List.append_nil] using hq []
  exact h more data i rest (hnow.symm.trans hcut) ((hq more).symm.trans htoken)

/-- A reader that comes to no raw run reports nothing. -/
theorem reportsData_of_nil {p : Bits → DecodeResult} (hcut : ∀ bs data, p bs = .truncated data → data = [])
    (htoken : ∀ bs i rest, p bs = .token i rest → rawData i = []) (n : Nat) (bs : Bits) : ReportsData n p bs := by
  intro more data i rest hp hp'
  rw [hcut bs data hp, htoken _ i rest hp', List.take_nil]

/-- Bits that end within the header hold no data byte. -/
theorem reportsData_of_short {n : Nat} {p : Bits → DecodeResult} {bs : Bits} (hp : p bs = .truncated [])
    (hn : n < 21) : ReportsData n p bs := by
  intro more data i rest hcut _
  cases hp.symm.trans hcut
  rw [Nat.div_eq_of_lt (by omega), List.take_zero]

theorem decodeLit_reportsData : ∀ n bs, ReportsData n decodeLit bs := by
  refine reportsData_of_nil (fun bs data h => ?_) fun bs i rest h => ?_
  · unfold decodeLit at h
    split at h
    · cases h
      rfl
    · split at h <;> cases h
      rfl
  · obtain ⟨u, -, l, -, -, rfl⟩ := decodeLit_eq_token_iff.mp h
    exact rawData_litOfFields u l

theorem decodeCopyLength_reportsData {mk : Nat → Instr} (hmk : ∀ len, rawData (mk len) = []) :
    ∀ n bs, ReportsData n (decodeCopyLength mk) bs := by
  refine reportsData_of_nil (fun bs data h => ?_) fun bs i rest h => ?_
  · unfold decodeCopyLength at h
    split at h <;> cases h
    rfl
  · obtain ⟨len, -, rfl⟩ := decodeCopyLength_eq_token_iff.mp h
    exact hmk len

/-- A field that was read is read alike with more bits after it. -/
theorem takeField_append_of_eq_some {n v : Nat} {bs rest : Bits} (h : takeField n bs = some (v, rest)) (more : Bits) :
    takeField n (bs ++ more) = some (v, rest ++ more) := by
  obtain ⟨hv, rfl⟩ := takeField_eq_some_iff.mp h
  exact takeField_eq_some_iff.mpr ⟨hv, List.append_assoc ..⟩

theorem length_lt_of_takeRawBody_eq {bs : Bits} (h : takeRawBody bs = ([], none)) : bs.length < 8 := by
  cases hfield : takeField 8 bs with
  | none => exact length_lt_of_takeField_eq_none hfield
  | some r =>
    rw [takeRawBody_of_field hfield] at h
    split at h <;> cases h

/-- A raw body that is cut short has given the bytes whose eight bits are all there (R103, R141). -/
theorem takeRawBody_of_cut {bs more rest : Bits} {data data' : List Byte} (hcut : takeRawBody bs = (data, none))
    (hfull : takeRawBody (bs ++ more) = (data', some rest)) : data = data'.take (bs.length / 8) := by
  induction bs using takeRawBody.induct generalizing data data' with
  | case1 b0 b1 b2 b3 b4 b5 b6 b7 bs hzero =>
    rw [takeRawBody, if_pos hzero] at hcut
    cases hcut
  | case2 b0 b1 b2 b3 b4 b5 b6 b7 bs hvalue ih =>
    rw [takeRawBody, if_neg hvalue] at hcut
    obtain ⟨rfl, hnone⟩ := Prod.mk.inj hcut
    simp only [List.cons_append, takeRawBody, if_neg hvalue] at hfull
    obtain ⟨rfl, hrest⟩ := Prod.mk.inj hfull
    have hlen : (bs.length + 8) / 8 = bs.length / 8 + 1 := Nat.add_div_right _ (by decide)
    have htail := ih (Prod.ext rfl hnone) (Prod.ext rfl hrest)
    refine (congrArg _ htail).trans ?_
    rw [← List.take_succ_cons, ← hlen]
    rfl
  | case3 bs hshort =>
    obtain rfl : data = [] := by simpa [takeRawBody] using congrArg Prod.fst hcut.symm
    rw [Nat.div_eq_of_lt (length_lt_of_takeRawBody_eq hcut), List.take_zero]

/-- The 13 bits of the header come before the body (R103). -/
theorem decodeRaw_reportsData (bs : Bits) : ReportsData (bs.length + 13) decodeRaw bs := by
  intro more data i rest hcut htoken
  obtain ⟨data', hfull, rfl⟩ := decodeRaw_eq_token_iff.mp htoken
  unfold decodeRaw at hcut
  split at hcut <;> cases hcut
  next hbody => exact takeRawBody_of_cut hbody hfull

/-- The offset field and what follows it, after the `k` bits of the control bit and the width probe (R53). -/
theorem decodeOffset_reportsData {k w : Nat} {mk : Nat → Nat → Instr} (hk : w = 10 → k = 3) (hw : k + w < 21)
    (hmk : ∀ o len, rawData (mk o len) = []) (bs : Bits) : ReportsData (bs.length + k) (decodeOffset w mk) bs := by
  cases hfield : takeField w bs with
  | none =>
    have hlen := length_lt_of_takeField_eq_none hfield
    exact reportsData_of_short (by simp only [decodeOffset, hfield]) (by omega)
  | some r =>
    obtain ⟨o, mid⟩ := r
    have hfield' := takeField_append_of_eq_some hfield
    by_cases hraw : w = 10 ∧ o = 0
    · have hlen : bs.length + k = mid.length + 13 := by
        rw [length_of_takeField hfield, hk hraw.1, hraw.1]
        omega
      rw [hlen]
      exact (decodeRaw_reportsData mid).of_eq fun more => decodeOffset_of_raw (hfield' more) hraw
    · exact (decodeCopyLength_reportsData (hmk o) _ mid).of_eq fun more => decodeOffset_of_copy (hfield' more) hraw

theorem decode_reportsData (bs : Bits) : ReportsData bs.length decode bs := by
  match bs with
  | [] | [false] | [false, true] => exact reportsData_of_short rfl (by decide)
  | true :: bs => exact (decodeLit_reportsData _ bs).of_eq fun _ => rfl
  | false :: true :: true :: bs =>
    exact (decodeOffset_reportsData (k := 3) (fun _ => rfl) (by decide) (fun _ _ => rfl) bs).of_eq fun _ => rfl
  | false :: true :: false :: bs =>
    exact (decodeOffset_reportsData (k := 3) (fun _ => rfl) (by decide) (fun _ _ => rfl) bs).of_eq fun _ => rfl
  | false :: false :: bs =>
    exact (decodeOffset_reportsData (k := 2) (w := 15) nofun (by decide) (fun _ _ => rfl) bs).of_eq fun _ => rfl

theorem length_encode (i : Instr) : (encode i).length = tokenBits i := by
  cases i with
  | litU0 l => exact Laws.EncodeLength.litU0 l
  | litU1 l => exact Laws.EncodeLength.litU1 l
  | litU2 l => exact Laws.EncodeLength.litU2 l
  | litU3 l => exact Laws.EncodeLength.litU3 l
  | litU4 l => exact Laws.EncodeLength.litU4 l
  | litIll u l => exact Laws.EncodeLength.litIll u l
  | cpy5 o len => exact Laws.EncodeLength.cpy5 o len
  | raw data => exact Laws.EncodeLength.raw data
  | cpy10 o len => exact Laws.EncodeLength.cpy10 o len
  | cpy15 o len => exact Laws.EncodeLength.cpy15 o len

/-- Settles O28: the decoder cuts the token's data off where its meaning does. -/
theorem cutTokenAgreesWithItsMeaning : Obligations.CutTokenAgreesWithItsMeaning := by
  intro s i hwf hprefix hne
  obtain ⟨data, hcut⟩ := (truncatedIffProperPrefix _).mpr ⟨i, hwf, hprefix, hne⟩
  have hdata : data = dataReadBeforeEnd i s := by
    obtain ⟨more, hmore⟩ := hprefix
    have htoken : decode (streamBits s ++ more) = .token i [] := by
      rw [hmore, ← decode_encode_append hwf [], List.append_nil]
    rw [dataReadBeforeEnd_eq, ← length_streamBits, decode_reportsData _ more data i [] hcut htoken]
  have hshort : bitsRemain (tokenBits i) s = false := by
    have hlen : (streamBits s).length < (encode i).length :=
      lt_of_le_of_ne hprefix.length_le fun heq => hne (hprefix.eq_of_length heq)
    rw [length_streamBits, length_encode, bitsLeft] at hlen
    exact decide_eq_false (by omega)
  rw [fetch, hcut, exec_of_short hshort, ← hdata]
  rfl

end Sys2Proof

/-! ## Which fault a token takes, and what follows it (R130, R132, R133, R137, R138) -/

namespace Sys2Proof

open Machine

/-! ### The checks of a complete token -/

theorem litIndex_eq (u l : Nat) : litIndex u l = l + (2 ^ u - 1) * 16 :=
  congrArg (l + ·) (Nat.shiftLeft_eq _ 4)

/-- Settles O30: the index check is the only one left once the bits are there. -/
theorem litIndexOutOfRange : Obligations.LitIndexOutOfRange := by
  intro s i u l hi hbits
  rw [exec_of_litFields hi, ← litIndex_eq]
  refine ⟨fun hindex => ⟨.indexOutOfRange, litToken_of_index_ge hbits hindex, .inl rfl⟩, fun hindex => ?_⟩
  obtain ⟨t, heq, heffect⟩ := litToken_litEffect hbits rfl hindex
  exact ⟨t, heq, heffect.status⟩

/-- Settles O37: the one fault that a `RAW` can take is `TruncatedStream`. -/
theorem copyBeyondOutputFaults : Obligations.CopyBeyondOutputFaults := by
  refine ⟨fun s i header offset len hi hbits hbeyond => ?copy, fun s t data hexec herr => ?raw⟩
  case copy =>
    rw [exec_copy hi hbits, copyOutcome, if_neg (Nat.not_le.mpr hbeyond)]
    rfl
  case raw =>
    obtain ⟨-, heq⟩ | ⟨-, heq⟩ := execRaw_cases data s
    · cases heq.symm.trans hexec
      exact (appendAll_keepsStatus data (advance (rawBits data.length) s)).err.symm.trans herr
    · cases (heq.trans (raise_eq _ _)).symm.trans hexec
      cases herr

/-! ### After a fault -/

/-- Of the codes the block writes, all but 0 are its three faults (R22, R130). -/
theorem eq_fault_of_blockWrites {e : Err} (h : e ≠ .none ∧ blockWrites e = true) :
    e = .truncatedStream ∨ e = .invalidOffset ∨ e = .indexOutOfRange := by
  cases e with
  | truncatedStream => exact .inl rfl
  | invalidOffset => exact .inr (.inl rfl)
  | indexOutOfRange => exact .inr (.inr rfl)
  | none => exact absurd rfl h.1
  | unsupportedFormat | ioError => cases h.2

/-- Settles O45: only a fault brings a `BUSY` block to `ERROR`, and the block moves only while `BUSY`. -/
theorem faultIsFinal : Obligations.FaultIsFinal := by
  intro s t hbusy hstep herror
  refine ⟨?code, runBlock_of_not_busy (by rw [herror]; decide)⟩
  obtain ⟨hidle, -⟩ | ⟨-, -, heq⟩ | ⟨-, -, heq⟩ := blockStep_cases s
  · exact absurd hbusy hidle
  · cases heq.symm.trans hstep
    cases herror
  · obtain ⟨u, hp, hend⟩ | ⟨u, e, -, hcode, hend⟩ := carryOut_fetch_outcome s
    · cases (heq.trans hend).symm.trans hstep
      rw [hp.keepsStatus.status, hbusy] at herror
      cases herror
    · cases ((heq.trans hend).trans (raise_eq e u)).symm.trans hstep
      exact eq_fault_of_blockWrites hcode

/-! ### Leaving `ERROR` -/

/-- Of the register writes START alone changes `STATUS` (R120, R122). -/
theorem writeRegister_status {n v : Nat} {s t : State} (hstep : writeRegister n v s = .next t) :
    t.status = s.status ∨ (n = 0 ∧ v % 2 = 1 ∧ t = start s) := by
  match n with
  | 0 =>
    cases hstep
    split
    · next hstart => exact .inr ⟨rfl, hstart.1, rfl⟩
    · exact .inl rfl
  | 3 | 4 =>
    cases hstep
    split <;> exact .inl rfl
  | 1 | 2 | 5 | 6 =>
    cases hstep
    exact .inl rfl
  | n + 7 => cases hstep

/-- While the block does not run, no move of the host but START and power-on reset changes `STATUS`. -/
theorem hostStep_status {m : HostMove} {s t : State} (hidle : s.status ≠ .busy) (hstep : hostStep m s = .next t) :
    t.status = s.status ∨ (m = .powerOn ∧ t = powerOnReset s) ∨ ∃ v, m = .writeReg 0 v ∧ v % 2 = 1 ∧ t = start s := by
  cases m with
  | writeReg n v =>
    obtain hkept | ⟨rfl, hv, hstart⟩ := writeRegister_status hstep
    · exact .inl hkept
    · exact .inr (.inr ⟨v, rfl, hv, hstart⟩)
  | readReg n =>
    obtain ⟨v, -, heq⟩ | ⟨-, heq⟩ := readRegister_cases n s
    · cases heq.symm.trans hstep
      exact .inl rfl
    · cases heq.symm.trans hstep
  | writePayload a b =>
    obtain ⟨-, heq⟩ | ⟨-, -, heq⟩ | ⟨-, -, heq⟩ := writePayloadWindow_cases a b s
    · cases heq.symm.trans hstep
    · cases heq.symm.trans hstep
    · cases heq.symm.trans hstep
      exact .inl rfl
  | readResult a =>
    obtain ⟨v, d, heq⟩ := readResultWindow_frame a s
    cases (congrArg Host.Outcome.next heq).symm.trans hstep
    exact .inl rfl
  | powerOn =>
    cases hstep
    exact .inr (.inl ⟨rfl, rfl⟩)
  | yield =>
    cases (if_neg hidle : blockStep s = .next s).symm.trans hstep
    exact .inl rfl

/-- Settles O46: the block holds its state in `ERROR`, and of the host's moves two write `STATUS`. -/
theorem onlyStartOrPowerOnLeavesError : Obligations.OnlyStartOrPowerOnLeavesError := by
  intro s t herror hstep hleft
  have hidle : s.status ≠ .busy := by rw [herror]; decide
  obtain ⟨-, heq⟩ | ⟨m, ms, hmoves, heq⟩ := step_cases s
  · cases (heq.trans (if_neg hidle)).symm.trans hstep
    exact absurd herror hleft
  · have hmove := hostStep_status (s := { s with hostMoves := ms }) hidle (heq.symm.trans hstep)
    obtain hkept | ⟨rfl, rfl⟩ | ⟨v, rfl, hv, hstart⟩ := hmove
    · exact absurd (hkept.trans herror) hleft
    · exact ⟨ms, .inl ⟨hmoves, rfl⟩⟩
    · exact ⟨ms, .inr ⟨v, hmoves, hv, hstart⟩⟩

end Sys2Proof

/-! ## Power-on reset and the host's framing (R150, R152, R153, R154, R155) -/

namespace Sys2Proof.Machine

/-! ### The framing of a code block -/

/-- A length within the header is read from the header alone (R153). -/
theorem bigEndianAt_append {header rest : List Byte} {a : Nat} (ha : a + 1 < header.length) :
    bigEndianAt (header ++ rest) a = bigEndianAt header a := by
  rw [bigEndianAt, List.getD_append _ _ _ _ (Nat.lt_of_succ_lt ha), List.getD_append _ _ _ _ ha, bigEndianAt]

/-- Without the magic the host reports and does not start (R152). -/
theorem frameCodeBlock_of_magic_ne {code : List Byte} (hmagic : code.take 4 ≠ Config.magic) :
    frameCodeBlock code = .fail (errCode .unsupportedFormat) :=
  if_pos hmagic

/-- With the magic and a total length from the header's up to the code block's, the host starts (R153, R154). -/
theorem frameCodeBlock_of_total_length {code : List Byte} (hmagic : code.take 4 = Config.magic)
    (hlow : Config.headerLength ≤ bigEndianAt code 6) (hhigh : bigEndianAt code 6 ≤ code.length) :
    frameCodeBlock code =
      .load (bigEndianAt code 4) ((code.take (bigEndianAt code 6)).drop Config.headerLength) :=
  (if_neg (not_not_intro hmagic)).trans (if_neg (by omega))

/-- The slice from the header to the total length is the payload, whatever follows it (R154). -/
theorem frameCodeBlock_header_append {header payload : List Byte} (extra : List Byte)
    (hheader : header.length = Config.headerLength) (hmagic : header.take 4 = Config.magic)
    (htotal : bigEndianAt header 6 = Config.headerLength + payload.length) :
    frameCodeBlock (header ++ (payload ++ extra)) = .load (bigEndianAt header 4) payload := by
  have height : header.length = 8 := hheader
  have htarget : bigEndianAt (header ++ (payload ++ extra)) 4 = bigEndianAt header 4 :=
    bigEndianAt_append (by omega)
  have hend : bigEndianAt (header ++ (payload ++ extra)) 6 = header.length + payload.length := by
    rw [bigEndianAt_append (by omega), htotal, hheader]
  rw [frameCodeBlock_of_total_length ((List.take_append_of_le_length (by omega)).trans hmagic)
    (by rw [hend]; omega) (by rw [hend, List.length_append, List.length_append]; omega), htarget, hend, ← hheader,
    List.take_length_add_append, List.drop_left, List.take_left]

/-- Settles O54: the eight bytes before the payload are a header with the magic. -/
theorem framingReadsLengthsAndSlice : Obligations.FramingReadsLengthsAndSlice := by
  intro d1 d0 t1 t0 payload extra htotal
  exact frameCodeBlock_header_append (header := [0x00, 0x70, 0x78, 0x61, d1, d0, t1, t0]) extra rfl rfl htotal

/-- Settles O55. -/
theorem wrongMagicIsUnsupportedFormat : Obligations.WrongMagicIsUnsupportedFormat :=
  fun _ hmagic => frameCodeBlock_of_magic_ne hmagic

/-! ### A pixel's byte (R155) -/

theorem toNat_lowBits (c : Byte) : (c &&& 3).toNat = c.toNat % 4 := Nat.and_two_pow_sub_one_eq_mod c.toNat 2

/-- Up to place 6 a channel's low two bits still fit the byte. -/
theorem toNat_lowBits_shiftLeft (c : Byte) {k : Nat} (hk : k ≤ 6) :
    ((c &&& 3) <<< k).toNat = 2 ^ k * (c.toNat % 4) := by
  have hfits : 2 ^ k * (c.toNat % 4) < 2 ^ 8 :=
    calc 2 ^ k * (c.toNat % 4) ≤ 2 ^ 6 * 3 := Nat.mul_le_mul (Nat.pow_le_pow_right (by decide) hk) (by omega)
      _ < 2 ^ 8 := by decide
  rw [BitVec.toNat_shiftLeft, toNat_lowBits, Nat.shiftLeft_eq, Nat.mul_comm, Nat.mod_eq_of_lt hfits]

/-- Where the bits of `x` stand at place `k` and above and those of `y` below it, `or` adds the two. -/
theorem toNat_or_eq_add (k : Nat) {x y : Byte} (hx : 2 ^ k ∣ x.toNat) (hy : y.toNat < 2 ^ k) :
    (x ||| y).toNat = x.toNat + y.toNat := by
  obtain ⟨n, hn⟩ := hx
  rw [BitVec.toNat_or, hn, Nat.two_pow_add_eq_or_of_lt hy]

/-- Settles O56: each channel's two bits stand below those of the channels before it. -/
theorem pixelPacksLowBits : Obligations.PixelPacksLowBits := by
  intro p
  have ha := toNat_lowBits_shiftLeft p.alpha (k := 6) (by decide)
  have hr := toNat_lowBits_shiftLeft p.red (k := 4) (by decide)
  have hg := toNat_lowBits_shiftLeft p.green (k := 2) (by decide)
  have hb := toNat_lowBits p.blue
  have har := toNat_or_eq_add 6 (x := (p.alpha &&& 3) <<< 6) (y := (p.red &&& 3) <<< 4) (by omega) (by omega)
  have harg := toNat_or_eq_add 4 (y := (p.green &&& 3) <<< 2) (by rw [har]; omega) (by omega)
  have hargb := toNat_or_eq_add 2 (y := p.blue &&& 3) (by rw [harg, har]; omega) (by omega)
  rw [pixelByte, hargb, harg, har, ha, hr, hg, hb]
  norm_num

/-! ### Reset -/

/-- Settles O1: the registers and the two empty memories are as the state at reset is defined. -/
theorem resetLeavesIdleAndZero : Obligations.ResetLeavesIdleAndZero :=
  ⟨rfl, rfl, rfl, rfl, rfl, rfl, fun a => ⟨memRead_nil a, memRead_nil a⟩⟩

end Sys2Proof.Machine

/-! ## Sample words (95_test_vectors.md, Part 2) -/

namespace Sys2Proof

/-- A word that the encoder writes for a token decodes to that token and leaves no bits. -/
theorem decode_of_encode_eq {i : Instr} {word : Bits} (hwf : wellFormed i = true) (hword : encode i = word) :
    decode word = .token i [] := by
  have hdecode := decode_encode_append hwf []
  rwa [List.append_nil, hword] at hdecode

/-- Settles O21: each word is the one that the encoder writes for its token. -/
theorem sampleWordsDecode : Obligations.SampleWordsDecode :=
  ⟨decode_of_encode_eq rfl rfl, decode_of_encode_eq rfl rfl, decode_of_encode_eq rfl rfl,
    decode_of_encode_eq rfl rfl, decode_of_encode_eq rfl rfl, decode_of_encode_eq rfl rfl⟩

end Sys2Proof
